-- ==== Sys2Proof/Word.lean ====
section
/-! DEFINITION. The machine's two sizes of datum and the index type of its register file (00_scope.md rule R2). -/

namespace Sys2Proof

/-- A register content or an instruction: 32 bit, read by weight, bit 31 the most significant (R2, R20). -/
abbrev Word := BitVec 32

/-- A group of 8 bit (R2, Glossar "Byte"). -/
abbrev Byte := BitVec 8

/-- One of the 32 general registers (R22): index `k` is the register with assembler name R`k+1` and machine name
`k+1`.  There is no index for register number zero, which does not exist (R23). -/
abbrev GReg := Fin 32

end Sys2Proof
end

