-- ==== Sys2Proof/Config.lean ====
section
/-! DEFINITION. The parameters that the spec leaves open (00_scope.md rule R3).  The spec fixes a value for none of
them, so every run carries its own: they are fields of State (the launch puts them there) and a statement about every
state holds for every value of them.  `Config.standard` is what `State.reset` is launched with (assumption 1). -/

namespace Sys2Proof

/-- `IMM8_EXT` (R3, R91): how the 8-bit number of ADDI is widened to 32 bit. -/
inductive ImmExt where
  | zero
  | sign
  deriving DecidableEq, Repr

/-- `MODE` (R3, R33, R203): Normalmodus or Einzelschrittmodus. -/
inductive Mode where
  | normal
  | singleStep
  deriving DecidableEq, Repr

/-- The open parameters of the step relation that are not the program (R3; decisions D10, D11, D16). -/
structure Config where
  /-- `OPC_LOADM`: the opcode of the load instruction of UMS §2.3.1. -/
  opcLoadm  : Byte
  /-- `OPC_STOREM`: the opcode of the store instruction of UMS §2.3.1. -/
  opcStorem : Byte
  /-- `IMM8_EXT`. -/
  immExt    : ImmExt
  /-- `MEM_SIZE`: data memory is the bytes at addresses 0 .. `memSize` - 1. -/
  memSize   : Nat
  deriving DecidableEq, Repr

/-- The category range 0x20..0x3F in which the two open opcodes lie (R3, R92). -/
def loadStoreRange (b : Byte) : Bool := 0x20 ≤ b.toNat && b.toNat ≤ 0x3F

/-- The constraint column of R3: both opcodes in 0x20..0x3F and different; `MEM_SIZE` at most 2^33 - 1. -/
def Config.wf (c : Config) : Bool :=
  loadStoreRange c.opcLoadm && loadStoreRange c.opcStorem && c.opcLoadm != c.opcStorem &&
    decide (c.memSize ≤ 2 ^ 33 - 1)

/-- The parameter values of `State.reset` and of `decodeTableWord`.  DESIGN CHOICE (assumption 1), unsafe for a claim
about `State.reset` alone: the spec fixes none of these.  Memory is as large as R51 allows. -/
def Config.standard : Config :=
  { opcLoadm := 0x20#8, opcStorem := 0x21#8, immExt := .zero, memSize := 2 ^ 33 - 1 }

end Sys2Proof
end

