-- ==== Sys2Proof/Syntax.lean ====
section
/-! DEFINITION. The instruction set: one constructor per row of spec/opcode_table.json (30_encoding.md rule R93). -/

namespace Sys2Proof

/-- A byte that the instruction's format declares a register: a machine name (R22, R88), not yet checked. -/
abbrev RegByte := Byte

/-- The five instructions.  An operand is the byte that stands in the instruction, so that a term can name a register
that does not exist; `Instr.wf` says when it does not.  NOP has no operand: its three fill bytes are not
significant (R83, R96). -/
inductive Instr where
  /-- NOP, opcode 0x00, format 000 (R120). -/
  | nop
  /-- ADD Rd Rs Rt, opcode 0x40, format RRR (R150). -/
  | add (d s t : RegByte)
  /-- ADDI Rd Rs n, opcode 0x41, format RRN (R151); the last byte is a number. -/
  | addi (d s : RegByte) (n8 : Byte)
  /-- LOADM R B I, opcode `OPC_LOADM`, format RRR (R131). -/
  | loadm (r b i : RegByte)
  /-- STOREM R B I, opcode `OPC_STOREM`, format RRR (R132); the first operand is a source. -/
  | storem (r b i : RegByte)
  deriving DecidableEq, Repr

end Sys2Proof
end

