-- ==== Sys2Proof/WellFormed.lean ====
section
/-! DEFINITION. Which terms are instructions of the machine, and the names of the errors the machine reports
(10_state.md rules R22, R23, R25; 60_exceptions.md rule R190). -/

namespace Sys2Proof

/-- Which register operand of an instruction: 1, 2 or 3 for the second, third or fourth byte (R88). -/
inductive Position where
  | first
  | second
  | third
  deriving DecidableEq, Repr

/-- The five error causes and what each records (R190).  No numeric code exists (decision D31). -/
inductive ErrorCause where
  /-- A register byte is 0x00 (R23, R191).  Raised by ADD, ADDI, LOADM, STOREM at decode. -/
  | zeroRegister (p : Position)
  /-- A register byte is 0x21..0xFF (R25, R192).  Raised by ADD, ADDI, LOADM, STOREM at decode. -/
  | invalidRegister (p : Position) (b : Byte)
  /-- The opcode is unassigned (R95, R193). -/
  | illegalOpcode (b1 : Byte)
  /-- The effective address is no multiple of 4 (R58, R194).  Raised by LOADM, STOREM at execution. -/
  | misalignedAccess (ea : Nat)
  /-- The four bytes are not all inside memory (R59, R195).  Raised by LOADM, STOREM at execution. -/
  | memoryRange (ea : Nat)
  deriving DecidableEq, Repr

/-- A register byte names a general register when it lies in 0x01..0x20 (R22). -/
def regByteOk (b : RegByte) : Bool := 1 ≤ b.toNat && b.toNat ≤ 32

/-- Every byte that the format declares a register names one.  A numeric field is never checked (R88, R151). -/
def Instr.wf : Instr → Bool
  | .nop => true
  | .add d s t => regByteOk d && regByteOk s && regByteOk t
  | .addi d s _ => regByteOk d && regByteOk s
  | .loadm r b i => regByteOk r && regByteOk b && regByteOk i
  | .storem r b i => regByteOk r && regByteOk b && regByteOk i

end Sys2Proof
end

