-- ==== Sys2Proof/Decode.lean ====
section
/-! DEFINITION. Instruction encoding (30_encoding.md): the bytes of a word, the five formats, the eight categories,
the check of a register byte, the decoder of R100, total on all words, and the encoder beside it. -/

namespace Sys2Proof

/-! ### The bytes of a word (R56, R81) -/

/-- First byte, bits 31..24: the Befehl. -/
def Word.b1 (w : Word) : Byte := w.extractLsb' 24 8

/-- Second byte, bits 23..16. -/
def Word.b2 (w : Word) : Byte := w.extractLsb' 16 8

/-- Third byte, bits 15..8. -/
def Word.b3 (w : Word) : Byte := w.extractLsb' 8 8

/-- Fourth byte, bits 7..0. -/
def Word.b4 (w : Word) : Byte := w.extractLsb' 0 8

/-- Four bytes read together are big-endian: the first read is the most significant (R56). -/
def ofBytes (b1 b2 b3 b4 : Byte) : Word := b1 ++ b2 ++ b3 ++ b4

/-- The four bytes of a word, the first at the lowest address (R56). -/
def Word.toBytes (w : Word) : List Byte := [w.b1, w.b2, w.b3, w.b4]

/-! ### Categories (R92) -/

/-- The eight categories of UMS Table 3.1. -/
inductive Category where
  | control
  | loadStore
  | arithmetic
  | logical
  | compare
  | jump
  | subroutine
  | system
  deriving DecidableEq, Repr

/-- The category of an opcode: its top three bits, 0 for control up to 7 for system (R92). -/
def categoryOf (b1 : Byte) : Category :=
  match b1.toNat / 32 with
  | 0 => .control
  | 1 => .loadStore
  | 2 => .arithmetic
  | 3 => .logical
  | 4 => .compare
  | 5 => .jump
  | 6 => .subroutine
  | _ => .system

/-! ### Formats (R83 to R87, R89 to R91) -/

/-- The five instruction formats: `0` an unused byte, `N` a numeric one, `R` a register. -/
inductive Format where
  | f000
  | fNNN
  | fRNN
  | fRRN
  | fRRR
  deriving DecidableEq, Repr

/-- What a format reads from the three bytes after the Befehl. -/
inductive Fields where
  /-- Format 000: nothing is evaluated (R83). -/
  | unused
  /-- Format NNN: a 24-bit number (R84, R89). -/
  | number (n24 : BitVec 24)
  /-- Format RNN: a register and a 16-bit number (R85, R90). -/
  | regNumber (r1 : RegByte) (n16 : BitVec 16)
  /-- Format RRN: two registers and an 8-bit number (R86, R91). -/
  | regRegNumber (r1 r2 : RegByte) (n8 : Byte)
  /-- Format RRR: three registers (R87). -/
  | regRegReg (r1 r2 r3 : RegByte)
  deriving DecidableEq, Repr

/-- The fields of a word read in a format; the byte that comes first is the most significant (R83 to R91). -/
def Format.read : Format → Word → Fields
  | .f000, _ => .unused
  | .fNNN, w => .number (w.b2 ++ w.b3 ++ w.b4)
  | .fRNN, w => .regNumber w.b2 (w.b3 ++ w.b4)
  | .fRRN, w => .regRegNumber w.b2 w.b3 w.b4
  | .fRRR, w => .regRegReg w.b2 w.b3 w.b4

/-- The one format of an assigned opcode, `none` for an unassigned one (R93, R94). -/
def formatOf (c : Config) (b1 : Byte) : Option Format :=
  if b1 = 0x00#8 then some .f000
  else if b1 = 0x40#8 then some .fRRR
  else if b1 = 0x41#8 then some .fRRN
  else if b1 = c.opcLoadm then some .fRRR
  else if b1 = c.opcStorem then some .fRRR
  else none

/-! ### Register operands (R22, R88) -/

/-- The machine name of a general register: R`n` is `n` (R22). -/
def GReg.name (r : GReg) : RegByte := BitVec.ofNat 8 (r.val + 1)

/-- The check `reg(b)` of R88. -/
def reg (p : Position) (b : RegByte) : Except ErrorCause GReg :=
  if b = 0x00#8 then .error (.zeroRegister p)
  else if h : b.toNat ≤ 32 then .ok ⟨b.toNat - 1, by omega⟩
  else .error (.invalidRegister p b)

/-- The register bytes of format RRN, checked in the order `b2`, `b3`; the first failing byte gives the error (R88). -/
def regs2 (b2 b3 : RegByte) : Except ErrorCause (GReg × GReg) :=
  match reg .first b2 with
  | .error c => .error c
  | .ok r1 =>
    match reg .second b3 with
    | .error c => .error c
    | .ok r2 => .ok (r1, r2)

/-- The register bytes of format RRR, checked in the order `b2`, `b3`, `b4` (R88). -/
def regs3 (b2 b3 b4 : RegByte) : Except ErrorCause (GReg × GReg × GReg) :=
  match regs2 b2 b3 with
  | .error c => .error c
  | .ok (r1, r2) =>
    match reg .third b4 with
    | .error c => .error c
    | .ok r3 => .ok (r1, r2, r3)

/-- `i` if the register check passes, else the check's error. -/
def checked {α : Type} (check : Except ErrorCause α) (i : Instr) : Except ErrorCause Instr :=
  match check with
  | .error c => .error c
  | .ok _ => .ok i

/-! ### The decoder (R100) -/

/-- The decoder of R100.  Total on all words: one of the five instructions or one of `illegalOpcode`, `zeroRegister`,
`invalidRegister`.  The opcode is examined first, then the register bytes. -/
def decode (c : Config) (w : Word) : Except ErrorCause Instr :=
  if w.b1 = 0x00#8 then .ok .nop
  else if w.b1 = 0x40#8 then checked (regs3 w.b2 w.b3 w.b4) (.add w.b2 w.b3 w.b4)
  else if w.b1 = 0x41#8 then checked (regs2 w.b2 w.b3) (.addi w.b2 w.b3 w.b4)
  else if w.b1 = c.opcLoadm then checked (regs3 w.b2 w.b3 w.b4) (.loadm w.b2 w.b3 w.b4)
  else if w.b1 = c.opcStorem then checked (regs3 w.b2 w.b3 w.b4) (.storem w.b2 w.b3 w.b4)
  else .error (.illegalOpcode w.b1)

/-- Why a list of bytes gives no instruction. -/
inductive DecodeError where
  /-- Fewer than the 4 bytes of an instruction (R80): such bytes are no part of a program (R233). -/
  | tooShort (bytes : Nat)
  /-- The word raises an error at decode (R100). -/
  | raised (c : ErrorCause)
  deriving DecidableEq, Repr

/-- The decoder on a list of bytes: the instruction of the first four and the bytes after them (R56, R80). -/
def decodeBytes (c : Config) : List Byte → Except DecodeError (Instr × List Byte)
  | a :: b :: d :: e :: rest =>
    match decode c (ofBytes a b d e) with
    | .ok i => .ok (i, rest)
    | .error err => .error (.raised err)
  | short => .error (.tooShort short.length)

/-! ### The encoder (R93) -/

/-- The opcode of an instruction (R93). -/
def Instr.opcode (c : Config) : Instr → Byte
  | .nop => 0x00#8
  | .add _ _ _ => 0x40#8
  | .addi _ _ _ => 0x41#8
  | .loadm _ _ _ => c.opcLoadm
  | .storem _ _ _ => c.opcStorem

/-- The word of an instruction, operand bytes in the order of its format; NOP is filled with zero bits
(R82, R86, R87). -/
def encode (c : Config) (i : Instr) : Word :=
  match i with
  | .nop => ofBytes (i.opcode c) 0#8 0#8 0#8
  | .add d s t => ofBytes (i.opcode c) d s t
  | .addi d s n8 => ofBytes (i.opcode c) d s n8
  | .loadm r b x => ofBytes (i.opcode c) r b x
  | .storem r b x => ofBytes (i.opcode c) r b x

/-! ### The host's view of the decoder -/

/-- The word whose table bits are `w`, `nbits` of them given: bit 0 is the least significant, the bits above are 0. -/
def tableWord (nbits w : Nat) : Word := BitVec.ofNat 32 (w % 2 ^ nbits)

/-- The instruction the decoder reads from a table word laid out in its byte order, under the parameter values of
`State.reset` (assumption 1). -/
def decodeTableWord (nbits w : Nat) : Option Instr :=
  match decodeBytes Config.standard (tableWord nbits w).toBytes with
  | .ok (i, _) => some i
  | .error _ => none

end Sys2Proof
end

