-- ==== Sys2Proof/Machine/State.lean ====
section
/-! DEFINITION. The state of the machine as plain data (10_state.md), the launch, the state after power-up, and the
ways a step can stop. -/

namespace Sys2Proof.Machine

/-- The run state (R32).  `waiting` is the Wartezustand of UMS §2.1.1. -/
inductive RunState where
  | running
  | paused
  | waiting
  | error (c : ErrorCause)
  | off
  deriving DecidableEq, Repr

/-- What the host can do to a launched machine (R207, R235): its only two moves. -/
inductive HostMove where
  /-- The external signal of single-step mode (R204). -/
  | signal
  /-- Switching the machine off (R205). -/
  | switchOff
  deriving DecidableEq, Repr

/-- Who makes the next move (R207: the VM and the host are the only agents). -/
inductive Turn where
  | machine
  | host (m : HostMove)
  deriving DecidableEq, Repr

/-- Data memory (R51): the bytes that differ from `Memory.unlisted`, addresses strictly rising.  `Memory.wf` in
Machine/Ops.lean is the canonical form. -/
abbrev Memory := List Host.Cell

/-- Everything the spec gives the machine.  There is no flag and no special register (R26, R27, R36). -/
structure State where
  /-- The open parameters of R3, chosen at launch, never changed. -/
  config : Config
  /-- `PROG` (R3, R30): the program store, separate from `mem`, never written. -/
  prog   : List Word
  /-- `x[1]` .. `x[32]` (R22): index `k` holds `x[k+1]`. -/
  regs   : Vector Word 32
  /-- The program counter (R28): the byte offset of the instruction from the start of the program. -/
  pc     : Nat
  /-- Data memory (R51). -/
  mem    : Memory
  /-- The operating mode (R33). -/
  mode   : Mode
  /-- The run state (R32). -/
  run    : RunState
  /-- The MODEL's own field, not the spec's (assumption 2): the order in which the machine and the host move; when it
  is used up every move is the machine's. -/
  turns  : List Turn
  deriving DecidableEq, Repr

/-- What the host chooses before power-up (R3, R235), with the order of moves. -/
structure Launch where
  config  : Config
  prog    : List Word
  /-- `MEM_INIT` (R61): any content, given in the canonical form of `Memory`. -/
  memInit : Memory
  mode    : Mode
  turns   : List Turn
  deriving DecidableEq, Repr

/-- The state after power-up (R24, R231). -/
def State.powerUp (l : Launch) : State :=
  { config := l.config
    prog   := l.prog
    regs   := Vector.replicate 32 0
    pc     := 0
    mem    := l.memInit
    mode   := l.mode
    run    := .running
    turns  := l.turns }

/-- The launch of `State.reset`: nothing loaded, memory with nothing listed, normal mode.  DESIGN CHOICE
(assumptions 1, 3, 4, 5), unsafe for a claim about `State.reset` alone: R232 forbids to assume any of these. -/
def Launch.standard : Launch :=
  { config := Config.standard, prog := [], memInit := [], mode := .normal, turns := [] }

/-- The machine right after power-up with the launch `Launch.standard` (R231). -/
def State.reset : State := State.powerUp Launch.standard

/-- Why a step has no next state: the run states in which "the machine has no step" (R34), and a program counter that
no run reaches.  The five errors of R190 are no faults here: the machine takes them into `RunState.error` (R199). -/
inductive Fault where
  /-- Raised by `step` on the machine's turn in `paused`: it waits for the host's signal (R204).  Safe: nothing goes on
  without the signal. -/
  | awaitingSignal
  /-- Raised by `step` on the machine's turn in `waiting`: the run has ended (R205, R234).  Safe. -/
  | runEnded
  /-- Raised by `step` on the machine's turn in `error c`: the machine has stopped with its error reported (R199).
  Safe. -/
  | stoppedByError (c : ErrorCause)
  /-- Raised by `step` on the machine's turn in `off` (R205).  Safe. -/
  | switchedOff
  /-- Raised by `step` when the program counter lies beyond the end of the program, which R31 excludes
  (assumption 6).  Safe. -/
  | pcBeyondProgram
  deriving DecidableEq, Repr

/-- Why an instruction has no meaning. -/
inductive Refusal where
  /-- Raised by `exec` for an instruction that has no meaning yet; no arm of this model is so.  Safe. -/
  | notModelled (mnemonic : String)
  deriving DecidableEq, Repr

/-- What a meaning and a step answer. -/
abbrev Result := Host.Outcome State Fault Refusal

end Sys2Proof.Machine
end

