-- ==== Sys2Proof/Machine/Ops.lean ====
section
/-! DEFINITION. The named operations over registers, memory, program store and run state: the primitives of
00_scope.md section 6.2, the error entry of R199, the host's moves, and the places where the cycle of R34 touches the
state. -/

namespace Sys2Proof.Machine

/-! ### Data memory (R51, R55, R57 to R61) -/

/-- What an address that memory does not list reads as.  A convention of the representation (assumption 3): every
content of memory is some canonical list, whatever this byte is. -/
def Memory.unlisted : Byte := 0#8

/-- The byte at an address. -/
def Memory.readByte : Memory → Nat → Byte
  | [], _ => Memory.unlisted
  | (k, v) :: m, a => if a = k then v else Memory.readByte m a

/-- A cell in front of a memory whose addresses are larger; no cell for a byte that is read without one. -/
def Memory.listed (a : Nat) (b : Byte) (m : Memory) : Memory :=
  if b = Memory.unlisted then m else (a, b) :: m

/-- Writing one byte keeps the canonical form. -/
def Memory.writeByte : Memory → Nat → Byte → Memory
  | [], a, b => Memory.listed a b []
  | (k, v) :: m, a, b =>
    if a < k then Memory.listed a b ((k, v) :: m)
    else if a = k then Memory.listed a b m
    else (k, v) :: Memory.writeByte m a b

/-- Canonical from address `lo` on: strictly rising addresses, no cell that reads as an unlisted one. -/
def Memory.wfFrom : Nat → Memory → Bool
  | _, [] => true
  | lo, (k, v) :: m => decide (lo ≤ k) && (v != Memory.unlisted) && Memory.wfFrom (k + 1) m

/-- The canonical form of data memory. -/
def Memory.wf (m : Memory) : Bool := Memory.wfFrom 0 m

/-- Every listed address is below `n`: memory has no byte outside `mem[0]` .. `mem[n - 1]` (R51). -/
def Memory.below (n : Nat) (m : Memory) : Bool := m.all fun cell => decide (cell.1 < n)

/-- `mem[a] ++ mem[a+1] ++ mem[a+2] ++ mem[a+3]`, big-endian (R57). -/
def Memory.readWord (m : Memory) (a : Nat) : Word :=
  ofBytes (m.readByte a) (m.readByte (a + 1)) (m.readByte (a + 2)) (m.readByte (a + 3))

/-- The four bytes of `v`, the most significant at `a` (R57). -/
def Memory.writeWord (m : Memory) (a : Nat) (v : Word) : Memory :=
  (((m.writeByte a v.b1).writeByte (a + 1) v.b2).writeByte (a + 2) v.b3).writeByte (a + 3) v.b4

/-- The checks before a word access: alignment first (R58), then bounds (R59). -/
def accessError (memSize ea : Nat) : Option ErrorCause :=
  if ea % 4 ≠ 0 then some (.misalignedAccess ea)
  else if memSize ≤ ea + 3 then some (.memoryRange ea)
  else none

/-- `MemRead(addr, 4)` of 00_scope.md section 6.2. -/
def memRead (memSize : Nat) (m : Memory) (ea : Nat) : Except ErrorCause Word :=
  match accessError memSize ea with
  | some c => .error c
  | none => .ok (m.readWord ea)

/-- `MemWrite(addr, 4, v)` of 00_scope.md section 6.2. -/
def memWrite (memSize : Nat) (m : Memory) (ea : Nat) (v : Word) : Except ErrorCause Memory :=
  match accessError memSize ea with
  | some c => .error c
  | none => .ok (m.writeWord ea v)

/-! ### General registers (R22, R24) -/

/-- `x[i]`: the content of a general register. -/
def State.x (s : State) (r : GReg) : Word := s.regs[r]

/-- `x[i] <- v`.  No register is hard-wired (R22). -/
def State.setX (s : State) (r : GReg) (v : Word) : State := { s with regs := s.regs.set r v }

/-- Data memory replaced, by a store. -/
def State.setMem (s : State) (m : Memory) : State := { s with mem := m }

/-! ### Completing, and taking an error -/

/-- `pc <- pc + 4`: the instruction completes (R29). -/
def State.advance (s : State) : State := { s with pc := s.pc + 4 }

/-- Error entry (R199): the run state becomes `error c`; no register, no memory byte and not `pc` change, nothing is
saved, no handler is entered.  There is no return from an error (R201). -/
def State.raise (c : ErrorCause) (s : State) : State := { s with run := .error c }

/-- The instruction cycle after an instruction (R34, R204): in single-step mode a machine that has raised no error
pauses. -/
def State.pauseIfSingleStep (s : State) : State :=
  match s.run, s.mode with
  | .running, .singleStep => { s with run := .paused }
  | _, _ => s

/-- The end of a run (R234). -/
def State.endRun (s : State) : State := { s with run := .waiting }

/-! ### The host's moves and whose turn it is -/

/-- A move of the host: the signal takes `paused` to `running` and is ignored elsewhere (R204), switching off leads
from any run state to `off` (R205).  Nothing else changes (R235). -/
def State.hostMove (m : HostMove) (s : State) : State :=
  match m with
  | .signal => match s.run with
    | .paused => { s with run := .running }
    | _ => s
  | .switchOff => { s with run := .off }

/-- The host's move if the next turn is the host's. -/
def State.hostTurn (s : State) : Option HostMove :=
  match s.turns with
  | .host m :: _ => some m
  | _ => none

/-- The turn that is being taken is used up. -/
def State.endTurn (s : State) : State := { s with turns := s.turns.tail }

/-! ### Fetch (R30, R31) -/

/-- No instruction is left: `pc = 4 * L` (R31). -/
def State.atEnd (s : State) : Bool := s.pc == 4 * s.prog.length

/-- `PROG[pc / 4]` (R30). -/
def State.fetch (s : State) : Option Word := s.prog[s.pc / 4]?

/-- A program store with `w` as its instruction number `k`; a shorter program is filled up with the word 0. -/
def placeWord (w : Word) : Nat → List Word → List Word
  | 0, [] => [w]
  | 0, _ :: p => w :: p
  | k + 1, [] => 0 :: placeWord w k []
  | k + 1, v :: p => v :: placeWord w k p

/-- The state in which the machine's next step fetches and runs `w`: the program store holds `w` where `pc` points,
the machine is `running`, and no move of the host comes first (assumption 4). -/
def State.withNextWord (s : State) (w : Word) : State :=
  { s with prog := placeWord w (s.pc / 4) s.prog, run := .running, turns := [] }

end Sys2Proof.Machine
end

