-- ==== Sys2Proof/Machine/Operands.lean ====
section
/-! DEFINITION. Every operand form: register operands of formats RRR and RRN, the number of ADDI, and the one
addressing mode (30_encoding.md rules R88, R91; 20_memory.md rules R52, R53; 41_load_store.md rule R133). -/

namespace Sys2Proof.Machine

/-- Run `k` on the registers that a check gives, or take the error it gives (R88, R199). -/
def withChecked {α : Type} (check : Except ErrorCause α) (s : State) (k : α → Result) : Result :=
  match check with
  | .error c => .next (s.raise c)
  | .ok a => k a

/-- `ext8(n8)` of R91: the 8-bit number widened as `IMM8_EXT` says. -/
def ext8 (e : ImmExt) (n8 : Byte) : Word :=
  match e with
  | .zero => n8.setWidth 32
  | .sign => n8.signExtend 32

/-- The effective address `B + I` of R52: both contents unsigned, the sum not reduced modulo 2^32. -/
def State.ea (s : State) (b i : GReg) : Nat := (s.x b).toNat + (s.x i).toNat

end Sys2Proof.Machine
end

