-- ==== Sys2Proof/Machine/Flags.lean ====
section
/-! DEFINITION. The one arithmetic result of the machine.  There is no flag to compute: no carry, zero, sign or
overflow indication exists (10_state.md rule R27), and overflow is neither detected nor reported (R152, R196). -/

namespace Sys2Proof.Machine

/-- `(a + b) mod 2^32`: the exact sum with the carry out of bit 31 dropped (R152, decision D8). -/
def add32 (a b : Word) : Word := BitVec.ofNat 32 ((a.toNat + b.toNat) % 2 ^ 32)

end Sys2Proof.Machine
end

