-- ==== Sys2Proof/Machine/Arithmetic.lean ====
section
/-! DEFINITION. Arithmetic instructions (42_arithmetic.md). -/

namespace Sys2Proof.Machine

/-- ADD Rd Rs Rt (R150): `x[d] <- (x[s] + x[t]) mod 2^32`; both sources are read before the write (D25). -/
def execAdd (d s t : RegByte) (st : State) : Result :=
  withChecked (regs3 d s t) st fun (d, s, t) =>
    .next (st.setX d (add32 (st.x s) (st.x t))).advance

/-- ADDI Rd Rs n (R151): `x[d] <- (x[s] + ext8(n8)) mod 2^32`. -/
def execAddi (d s : RegByte) (n8 : Byte) (st : State) : Result :=
  withChecked (regs2 d s) st fun (d, s) =>
    .next (st.setX d (add32 (st.x s) (ext8 st.config.immExt n8))).advance

end Sys2Proof.Machine
end

