-- ==== Sys2Proof/Machine/Control.lean ====
section
/-! DEFINITION. Control instructions (40_control.md). -/

namespace Sys2Proof.Machine

/-- NOP (R120): nothing but the advance to the next instruction. -/
def execNop (s : State) : Result := .next s.advance

end Sys2Proof.Machine
end

