-- ==== Sys2Proof/Machine/LoadStore.lean ====
section
/-! DEFINITION. Load and store instructions (41_load_store.md). -/

namespace Sys2Proof.Machine

/-- LOADM R B I (R131): `x[R] <- mem(x[B] + x[I])`.  The address is computed from the old contents. -/
def execLoadm (r b i : RegByte) (s : State) : Result :=
  withChecked (regs3 r b i) s fun (r, b, i) =>
    withChecked (memRead s.config.memSize s.mem (s.ea b i)) s fun v =>
      .next (s.setX r v).advance

/-- STOREM R B I (R132): `mem(x[B] + x[I]) <- x[R]`, all four bytes or, on an error, none. -/
def execStorem (r b i : RegByte) (s : State) : Result :=
  withChecked (regs3 r b i) s fun (r, b, i) =>
    withChecked (memWrite s.config.memSize s.mem (s.ea b i) (s.x r)) s fun m =>
      .next (s.setMem m).advance

end Sys2Proof.Machine
end

