-- ==== Sys2Proof/Machine/Dispatch.lean ====
section
/-! DEFINITION. One arm per instruction of the opcode table (30_encoding.md rule R93). -/

namespace Sys2Proof.Machine

def exec (i : Instr) (s : State) : Host.Outcome State Fault Refusal :=
  match i with
  | .nop => Sys2Proof.Machine.execNop s
  | .add a b c => Sys2Proof.Machine.execAdd a b c s
  | .addi a b n8 => Sys2Proof.Machine.execAddi a b n8 s
  | .loadm a b c => Sys2Proof.Machine.execLoadm a b c s
  | .storem a b c => Sys2Proof.Machine.execStorem a b c s

end Sys2Proof.Machine
end

