-- ==== Sys2Proof/Machine/Cycle.lean ====
section
/-! DEFINITION. The machine's own step in the instruction cycle (10_state.md rule R34). -/

namespace Sys2Proof.Machine

/-- What follows an instruction's own effect in the cycle of R34: the pause of single-step mode. -/
def afterInstruction : Result → Result
  | .next s => .next s.pauseIfSingleStep
  | .fault f => .fault f
  | .refused r => .refused r

/-- The word is decoded and executed; an error at decode is taken like one at execution (R34, R199). -/
def runWord (w : Word) (s : State) : Result :=
  match decode s.config w with
  | .error c => .next (s.raise c)
  | .ok i => afterInstruction (exec i s)

/-- `step()` of R34: one step of the machine itself, defined only in the run state `running`. -/
def machineStep (s : State) : Result :=
  match s.run with
  | .running =>
    if s.atEnd then .next s.endRun
    else match s.fetch with
      | some w => runWord w s
      | none => .fault .pcBeyondProgram
  | .paused => .fault .awaitingSignal
  | .waiting => .fault .runEnded
  | .error c => .fault (.stoppedByError c)
  | .off => .fault .switchedOff

end Sys2Proof.Machine
end

