-- ==== Sys2Proof/Machine/Step.lean ====
section
/-! DEFINITION. One move of the whole machine: the instruction cycle (10_state.md rule R34), with the host's moves
between the machine's steps (70_reset_and_hazards.md rule R235). -/

namespace Sys2Proof.Machine

/-- One move: the host's if `turns` says so, else the machine's step (assumption 2). -/
def step (s : State) : Host.Outcome State Fault Refusal :=
  match s.hostTurn with
  | some m => .next (s.endTurn.hostMove m)
  | none => machineStep s.endTurn

/-- `s` with the table word `w` where the next step fetches its instruction (assumption 4). -/
def State.withFetchWord (s : State) (nbits w : Nat) : State := s.withNextWord (tableWord nbits w)

end Sys2Proof.Machine
end

