-- ==== Sys2Proof/Machine/Assembler.lean ====
section
/-! DEFINITION. The assembler level that the spec reads off UMS's three lines of text (30_encoding.md rules R97 to R99;
10_state.md rules R20, R22; 41_load_store.md rule R134; 43_unpopulated_categories.md rule R175).  A line is taken as its
mnemonic and its operands, blanks already split away; no step of the machine depends on this file. -/

namespace Sys2Proof.Machine

/-- An operand of an assembler line. -/
inductive AsmOperand where
  /-- The letter R and a decimal number (R22, R98). -/
  | register (n : Nat)
  /-- A bare number (R99). -/
  | number (n : Nat)
  deriving DecidableEq, Repr

/-- One assembler instruction (R97): operands in the order of the bytes of the machine instruction. -/
structure AsmLine where
  mnemonic : String
  operands : List AsmOperand
  deriving DecidableEq, Repr

/-- Why a line is refused. -/
inductive AsmError where
  /-- LOAD and REV, named in UMS §1.1 and not admitted (R134, R175). -/
  | notAdmitted (mnemonic : String)
  /-- A mnemonic that the spec does not have. -/
  | unknownMnemonic (mnemonic : String)
  /-- R0 and every R`n` above R32 (R98). -/
  | noSuchRegister (n : Nat)
  /-- A number that does not fit in the 8 bit of format RRN (R86). -/
  | numberTooLarge (n : Nat)
  /-- The operands are not those of the instruction's format. -/
  | wrongOperands (mnemonic : String)
  deriving DecidableEq, Repr

/-- The register bytes of an operand list of registers, the first bad one giving the error (R98). -/
def asmRegisters : List Nat → Except AsmError (List RegByte)
  | [] => .ok []
  | n :: ns =>
    if 1 ≤ n ∧ n ≤ 32 then
      match asmRegisters ns with
      | .ok bs => .ok (BitVec.ofNat 8 n :: bs)
      | .error e => .error e
    else .error (.noSuchRegister n)

/-- The instruction of a three-register line. -/
def asmRRR (mnemonic : String) (make : RegByte → RegByte → RegByte → Instr) :
    List AsmOperand → Except AsmError Instr
  | [.register x, .register y, .register z] =>
    match asmRegisters [x, y, z] with
    | .ok [a, b, c] => .ok (make a b c)
    | .ok _ => .error (.wrongOperands mnemonic)
    | .error e => .error e
  | _ => .error (.wrongOperands mnemonic)

/-- The instruction of a line with two registers and a number. -/
def asmRRN (mnemonic : String) (make : RegByte → RegByte → Byte → Instr) :
    List AsmOperand → Except AsmError Instr
  | [.register x, .register y, .number n] =>
    match asmRegisters [x, y] with
    | .ok [a, b] => if n < 256 then .ok (make a b (BitVec.ofNat 8 n)) else .error (.numberTooLarge n)
    | .ok _ => .error (.wrongOperands mnemonic)
    | .error e => .error e
  | _ => .error (.wrongOperands mnemonic)

/-- The assembler: mnemonics in capital letters, the operands of the instruction's format (R97 to R99). -/
def assemble (line : AsmLine) : Except AsmError Instr :=
  if line.mnemonic = "NOP" then
    if line.operands = [] then .ok .nop else .error (.wrongOperands "NOP")
  else if line.mnemonic = "ADD" then asmRRR "ADD" .add line.operands
  else if line.mnemonic = "ADDI" then asmRRN "ADDI" .addi line.operands
  else if line.mnemonic = "LOADM" then asmRRR "LOADM" .loadm line.operands
  else if line.mnemonic = "STOREM" then asmRRR "STOREM" .storem line.operands
  else if line.mnemonic = "LOAD" ∨ line.mnemonic = "REV" then .error (.notAdmitted line.mnemonic)
  else .error (.unknownMnemonic line.mnemonic)

/-- The assembler line of an instruction (R97; `LOADM R B I` and `STOREM R B I` by R99). -/
def disassemble : Instr → AsmLine
  | .nop => ⟨"NOP", []⟩
  | .add d s t => ⟨"ADD", [.register d.toNat, .register s.toNat, .register t.toNat]⟩
  | .addi d s n8 => ⟨"ADDI", [.register d.toNat, .register s.toNat, .number n8.toNat]⟩
  | .loadm r b i => ⟨"LOADM", [.register r.toNat, .register b.toNat, .register i.toNat]⟩
  | .storem r b i => ⟨"STOREM", [.register r.toNat, .register b.toNat, .register i.toNat]⟩

/-- An operand as text: the assembler name of a register, a number in decimal (R22, R98, R99). -/
def AsmOperand.text : AsmOperand → String
  | .register n => "R" ++ toString n
  | .number n => toString n

/-- A line as text: no commas, no brackets, blanks between (R97). -/
def AsmLine.text (line : AsmLine) : String :=
  String.intercalate " " (line.mnemonic :: line.operands.map AsmOperand.text)

end Sys2Proof.Machine
end

