-- ==== Sys2Proof/Machine/Loader.lean ====
section
/-! DEFINITION. From a compiled file to a machine that runs it (70_reset_and_hazards.md rule R233): the host's launch,
which happens outside the machine's steps. -/

namespace Sys2Proof.Machine

/-- The words of a program image, four bytes each, the first byte most significant; a file whose length is no multiple
of 4 is not a program (R233, D28). -/
def programOfImage : List Byte → Option (List Word)
  | [] => some []
  | a :: b :: c :: d :: rest =>
    match programOfImage rest with
    | some p => some (ofBytes a b c d :: p)
    | none => none
  | _ => none

/-- Power-up with a compiled file in the program store; no machine for a file that is not a program (R233, R235). -/
def boot (image : List Byte) (config : Config) (memInit : Memory) (mode : Mode) (turns : List Turn) : Option State :=
  match programOfImage image with
  | some p => some (State.powerUp { config := config, prog := p, memInit := memInit, mode := mode, turns := turns })
  | none => none

end Sys2Proof.Machine
end

