-- ==== Sys2Proof/Safety.lean ====
section
/-! DEFINITION. The terms in which claims about runs are stated: final and terminal run states, several steps in a row,
the invariant of every launched machine, and plain readings of the spec that the statements compare the model with. -/

namespace Sys2Proof

/-- The error of the first register byte that names no register, in the order given (R88). -/
def firstBadRegister : List (Position × RegByte) → Option ErrorCause
  | [] => none
  | (p, b) :: rest =>
    if b = 0x00#8 then some (.zeroRegister p)
    else if 0x20 < b.toNat then some (.invalidRegister p b)
    else firstBadRegister rest

/-- The register bytes of an instruction with their positions, in the order of its format. -/
def Instr.registerBytes : Instr → List (Position × RegByte)
  | .nop => []
  | .add d s t => [(.first, d), (.second, s), (.third, t)]
  | .addi d s _ => [(.first, d), (.second, s)]
  | .loadm r b i => [(.first, r), (.second, b), (.third, i)]
  | .storem r b i => [(.first, r), (.second, b), (.third, i)]

/-- The fields of an instruction as its format lays them out (R83, R86, R87). -/
def Instr.fields : Instr → Fields
  | .nop => .unused
  | .add d s t => .regRegReg d s t
  | .addi d s n8 => .regRegNumber d s n8
  | .loadm r b i => .regRegReg r b i
  | .storem r b i => .regRegReg r b i

/-- The category in which the spec describes an instruction (R92, R93). -/
def Instr.category : Instr → Category
  | .nop => .control
  | .add _ _ _ => .arithmetic
  | .addi _ _ _ => .arithmetic
  | .loadm _ _ _ => .loadStore
  | .storem _ _ _ => .loadStore

/-- The word whose bytes have the weights that R56 gives them: `b1` 2^31 .. 2^24 down to `b4` 2^7 .. 2^0. -/
def wordOf (b1 b2 b3 b4 : Byte) : Word :=
  BitVec.ofNat 32 (b1.toNat * 2 ^ 24 + b2.toNat * 2 ^ 16 + b3.toNat * 2 ^ 8 + b4.toNat)

/-- The register that an instruction writes when it completes: ADD, ADDI and LOADM their first operand, NOP and STOREM
none (R24, R120, R131, R132, R150, R151). -/
def Instr.destination : Instr → Option RegByte
  | .nop => none
  | .add d _ _ => some d
  | .addi d _ _ => some d
  | .loadm r _ _ => some r
  | .storem _ _ _ => none

end Sys2Proof

namespace Sys2Proof.Machine

/-! ### Ends of a run (R234) -/

/-- `waiting` is the only final state (R205, R234). -/
def State.final (s : State) : Bool := s.run == .waiting

/-- `waiting`, `error c` and `off` are terminal: the machine itself never leaves them; `paused` is not (R234). -/
def State.terminal (s : State) : Bool :=
  match s.run with
  | .waiting | .error _ | .off => true
  | .running | .paused => false

/-- A machine that has reported no error. -/
def State.noError (s : State) : Bool :=
  match s.run with
  | .error _ => false
  | _ => true

/-- What the host reads back of a machine in `waiting`: registers and memory (R235). -/
def State.readBack (s : State) : Option (Vector Word 32 × Memory) :=
  if s.run = .waiting then some (s.regs, s.mem) else none

/-- `k` steps in a row, ending at the first that has no next state. -/
def steps : Nat → State → Result
  | 0, s => .next s
  | k + 1, s =>
    match step s with
    | .next s' => steps k s'
    | .fault f => .fault f
    | .refused r => .refused r

/-! ### The invariant -/

/-- An error cause that its own row of the table of R190 allows. -/
def genuine (c : Config) : ErrorCause → Bool
  | .zeroRegister _ => true
  | .invalidRegister _ b => decide (0x20 < b.toNat)
  | .illegalOpcode b1 => formatOf c b1 == none
  | .misalignedAccess ea => ea % 4 != 0
  | .memoryRange ea => ea % 4 == 0 && decide (c.memSize ≤ ea + 3)

/-- What the run state says of the rest: a pause only in single-step mode (R32), the wait only at the end of the
program (R234), an error only at an instruction (R199) and with a cause that R190 allows. -/
def State.runOk (s : State) : Bool :=
  match s.run with
  | .running | .off => true
  | .paused => s.mode == .singleStep
  | .waiting => s.pc == 4 * s.prog.length
  | .error c => decide (s.pc < 4 * s.prog.length) && genuine s.config c

/-- The invariant of every launched machine: the parameters meet R3, `pc` is a multiple of 4 within 0 .. 4 * L (R28,
R31), memory is canonical and has no byte outside `mem[0]` .. `mem[MEM_SIZE - 1]` (R51), and the run state fits. -/
def State.inv (s : State) : Bool :=
  s.config.wf && s.pc % 4 == 0 && decide (s.pc ≤ 4 * s.prog.length) && s.mem.wf && s.mem.below s.config.memSize &&
    s.runOk

/-- A launch that R3 admits: the parameters meet their constraints and `MEM_INIT` is `MEM_SIZE` bytes. -/
def Launch.ok (l : Launch) : Bool := l.config.wf && l.memInit.wf && l.memInit.below l.config.memSize

/-! ### Plain readings of the spec -/

/-- It is the machine's turn and it is running: its next move is the cycle of R34. -/
def State.atMachineStep (s : State) : Prop := s.run = .running ∧ s.hostTurn = none

/-- The instruction that a machine is about to execute, if its word decodes (R30, R34). -/
def State.nextInstr (s : State) : Option Instr :=
  match s.fetch with
  | some w =>
    match decode s.config w with
    | .ok i => some i
    | .error _ => none
  | none => none

/-- The address a STOREM stores to: the effective address, where the register check and the access checks pass. -/
def State.storeAddress (r b i : RegByte) (s : State) : Option Nat :=
  match regs3 r b i with
  | .ok (_, b, i) => if accessError s.config.memSize (s.ea b i) = none then some (s.ea b i) else none
  | .error _ => none

/-- The order of moves in which the host answers each of `k` machine steps with the signal (R204). -/
def signalled : Nat → List Turn
  | 0 => []
  | k + 1 => .machine :: .host .signal :: signalled k

end Sys2Proof.Machine
end

