-- ==== Sys2Proof/Certificates/Slice0/Obligations.lean ====
section
/-! DEFINITION. The statements for the provers, each about the machine and none about one program.  A docstring names
the rule of spec/ behind the statement; a rule marked as a decision there is the spec's own choice (92_eei_decisions.md)
and is named with its D number. -/

open Sys2Proof Sys2Proof.Machine

/-! ### Encoding -/

/-- Words written out from 95_test_vectors.md (S1, S2, S3, V-N, V-A, V-I, V-LS, V-E) decode as listed there, for every
admissible pair of open opcodes. -/
def Obligations.SpecWordsDecodeAsListed : Prop :=
  ∀ c : Config, c.wf = true →
    decode c 0x00000000 = .ok .nop ∧
    decode c 0x00FFFFFF = .ok .nop ∧
    decode c 0x40010203 = .ok (.add 1 2 3) ∧
    decode c 0x4020201F = .ok (.add 32 32 31) ∧
    decode c 0x41010205 = .ok (.addi 1 2 5) ∧
    decode c 0x41030200 = .ok (.addi 3 2 0) ∧
    decode c (BitVec.ofNat 32 (c.opcLoadm.toNat * 0x1000000 + 0x010203)) = .ok (.loadm 1 2 3) ∧
    decode c (BitVec.ofNat 32 (c.opcStorem.toNat * 0x1000000 + 0x010203)) = .ok (.storem 1 2 3) ∧
    decode c 0x40010002 = .error (.zeroRegister .second) ∧
    decode c 0x40002100 = .error (.zeroRegister .first) ∧
    decode c 0x400102FF = .error (.invalidRegister .third 0xFF) ∧
    decode c 0x01020304 = .error (.illegalOpcode 0x01) ∧
    decode c 0x12010203 = .error (.illegalOpcode 0x12)

/-- Decode and encode agree on every well-formed instruction, for every admissible choice of the open parameters. -/
def Obligations.DecodeOfEncodeIsTheInstruction : Prop :=
  ∀ (c : Config) (i : Instr), c.wf = true → i.wf = true → decode c (encode c i) = .ok i

/-- Each word has one meaning: what the decoder accepts is well-formed and is encoded by that word, but for NOP, whose
fill bytes may hold anything (R83, R96). -/
def Obligations.AcceptedWordsReencodeToThemselves : Prop :=
  ∀ (c : Config) (w : Word) (i : Instr), c.wf = true → decode c w = .ok i →
    i.wf = true ∧ (encode c i = w ∨ (i = .nop ∧ w.toNat < 2 ^ 24))

/-- R100, the decoder by cases on the four bytes; the register checks in the order of R88. -/
def Obligations.DecoderIsTheCaseTableOfTheSpec : Prop :=
  ∀ (c : Config) (b1 b2 b3 b4 : Byte), c.wf = true →
    (b1 = 0x00#8 → decode c (wordOf b1 b2 b3 b4) = .ok .nop) ∧
    (b1 = 0x40#8 → decode c (wordOf b1 b2 b3 b4) =
      match firstBadRegister [(.first, b2), (.second, b3), (.third, b4)] with
      | some e => .error e
      | none => .ok (.add b2 b3 b4)) ∧
    (b1 = 0x41#8 → decode c (wordOf b1 b2 b3 b4) =
      match firstBadRegister [(.first, b2), (.second, b3)] with
      | some e => .error e
      | none => .ok (.addi b2 b3 b4)) ∧
    (b1 = c.opcLoadm → decode c (wordOf b1 b2 b3 b4) =
      match firstBadRegister [(.first, b2), (.second, b3), (.third, b4)] with
      | some e => .error e
      | none => .ok (.loadm b2 b3 b4)) ∧
    (b1 = c.opcStorem → decode c (wordOf b1 b2 b3 b4) =
      match firstBadRegister [(.first, b2), (.second, b3), (.third, b4)] with
      | some e => .error e
      | none => .ok (.storem b2 b3 b4)) ∧
    (b1 ≠ 0x00#8 → b1 ≠ 0x40#8 → b1 ≠ 0x41#8 → b1 ≠ c.opcLoadm → b1 ≠ c.opcStorem →
      decode c (wordOf b1 b2 b3 b4) = .error (.illegalOpcode b1))

/-- R95 (decision D4): 251 of the 256 opcodes are unassigned, 0x01 and 0x12 among them, and a machine that fetches a
word with such an opcode takes the error and nothing else changes, whatever the other bytes hold. -/
def Obligations.UnassignedOpcodesAre251AndStopTheMachine : Prop :=
  ∀ c : Config, c.wf = true →
    ((List.range 256).filter fun n => decide (BitVec.ofNat 8 n ≠ 0x00#8 ∧ BitVec.ofNat 8 n ≠ 0x40#8 ∧
      BitVec.ofNat 8 n ≠ 0x41#8 ∧ BitVec.ofNat 8 n ≠ c.opcLoadm ∧ BitVec.ofNat 8 n ≠ c.opcStorem)).length = 251 ∧
    (∀ b : Byte, b = 0x01#8 ∨ b = 0x12#8 → b ≠ 0x00#8 ∧ b ≠ 0x40#8 ∧ b ≠ 0x41#8 ∧ b ≠ c.opcLoadm ∧ b ≠ c.opcStorem) ∧
    ∀ (s : State) (b1 b2 b3 b4 : Byte), s.config = c → s.atMachineStep → s.fetch = some (wordOf b1 b2 b3 b4) →
      b1 ≠ 0x00#8 → b1 ≠ 0x40#8 → b1 ≠ 0x41#8 → b1 ≠ c.opcLoadm → b1 ≠ c.opcStorem →
      step s = .next { s with run := .error (.illegalOpcode b1), turns := s.turns.tail }

/-- R89 and R90, with the formats of R83 to R87: which bytes a format reads, and the value of its number. -/
def Obligations.FormatsReadTheBytesByWeight : Prop :=
  ∀ b1 b2 b3 b4 : Byte,
    Format.f000.read (wordOf b1 b2 b3 b4) = .unused ∧
    (∃ n : BitVec 24, Format.fNNN.read (wordOf b1 b2 b3 b4) = .number n ∧
      n.toNat = b2.toNat * 2 ^ 16 + b3.toNat * 2 ^ 8 + b4.toNat) ∧
    (∃ n : BitVec 16, Format.fRNN.read (wordOf b1 b2 b3 b4) = .regNumber b2 n ∧
      n.toNat = b3.toNat * 2 ^ 8 + b4.toNat) ∧
    Format.fRRN.read (wordOf b1 b2 b3 b4) = .regRegNumber b2 b3 b4 ∧
    Format.fRRR.read (wordOf b1 b2 b3 b4) = .regRegReg b2 b3 b4

/-- One opcode, one format (R94): a decoded instruction has the fields that the format of its opcode reads, and the
opcodes without a format are the illegal ones. -/
def Obligations.OpcodeAloneFixesTheFormat : Prop :=
  ∀ (c : Config) (w : Word),
    (∀ i, decode c w = .ok i → (formatOf c w.b1).map (fun f => f.read w) = some i.fields) ∧
    (formatOf c w.b1 = none ↔ decode c w = .error (.illegalOpcode w.b1))

/-- The ranges of Table 3.1 (R92) are the top three bits of the opcode, and every decoded instruction lies in the range
of its own category. -/
def Obligations.CategoryIsTheRangeOfTheOpcode : Prop :=
  (∀ b : Byte,
    (categoryOf b = .control ↔ b.toNat ≤ 0x1F) ∧
    (categoryOf b = .loadStore ↔ 0x20 ≤ b.toNat ∧ b.toNat ≤ 0x3F) ∧
    (categoryOf b = .arithmetic ↔ 0x40 ≤ b.toNat ∧ b.toNat ≤ 0x5F) ∧
    (categoryOf b = .logical ↔ 0x60 ≤ b.toNat ∧ b.toNat ≤ 0x7F) ∧
    (categoryOf b = .compare ↔ 0x80 ≤ b.toNat ∧ b.toNat ≤ 0x9F) ∧
    (categoryOf b = .jump ↔ 0xA0 ≤ b.toNat ∧ b.toNat ≤ 0xBF) ∧
    (categoryOf b = .subroutine ↔ 0xC0 ≤ b.toNat ∧ b.toNat ≤ 0xDF) ∧
    (categoryOf b = .system ↔ 0xE0 ≤ b.toNat)) ∧
  ∀ (c : Config) (w : Word) (i : Instr), c.wf = true → decode c w = .ok i → categoryOf w.b1 = i.category

/-- An assembler line and a well-formed instruction stand for each other (R97 to R99): the assembler accepts exactly
the lines that well-formed instructions are written as. -/
def Obligations.AssemblerAcceptsExactlyTheInstructionLines : Prop :=
  ∀ (line : AsmLine) (i : Instr), assemble line = .ok i ↔ (i.wf = true ∧ line = disassemble i)

/-- LOAD and REV are refused by name whatever their operands (R134, R175, decision D26), and R0 is refused in every
register operand (R98). -/
def Obligations.AssemblerRefusesLoadRevAndRegisterZero : Prop :=
  (∀ ops, assemble ⟨"LOAD", ops⟩ = .error (.notAdmitted "LOAD")) ∧
  (∀ ops, assemble ⟨"REV", ops⟩ = .error (.notAdmitted "REV")) ∧
  (∀ m ops i, AsmOperand.register 0 ∈ ops → assemble ⟨m, ops⟩ ≠ .ok i)

/-! ### Power-up, launch, memory -/

/-- R231: the state after power-up, for every launch; `State.reset` is one of these launches, chosen by the model
(assumption 1). -/
def Obligations.PowerUpGivesTheStateOfTheSpec : Prop :=
  (∀ (l : Launch) (r : GReg), (State.powerUp l).x r = 0) ∧
  (∀ l : Launch, (State.powerUp l).pc = 0 ∧ (State.powerUp l).mem = l.memInit ∧ (State.powerUp l).mode = l.mode ∧
    (State.powerUp l).run = .running ∧ (State.powerUp l).prog = l.prog ∧ (State.powerUp l).config = l.config) ∧
  ∃ l : Launch, l.ok = true ∧ State.reset = State.powerUp l

/-- The invariant holds at `State.reset` and after power-up of every admissible launch (R3, R31, R51). -/
def Obligations.InvariantHoldsAtReset : Prop :=
  State.reset.inv = true ∧ ∀ l : Launch, l.ok = true → (State.powerUp l).inv = true

/-- R61 (decision D17): `MEM_INIT` may be any bytes.  Every content of `n` bytes is exactly one canonical memory, so
the canonical form and the byte that an unlisted address reads as (assumption 3) exclude no content. -/
def Obligations.EveryMemoryContentIsOneCanonicalMemory : Prop :=
  (∀ (n : Nat) (f : Nat → Byte), ∃ m : Memory, m.wf = true ∧ m.below n = true ∧ ∀ a, a < n → m.readByte a = f a) ∧
  ∀ m m' : Memory, m.wf = true → m'.wf = true → (∀ a, m.readByte a = m'.readByte a) → m = m'

/-- R233 (decision D28): a compiled file is a program exactly when its length is a multiple of 4; its words are its bytes
four at a time, the first most significant; other files get no run; the empty program goes to `waiting` in one step
with every register 0. -/
def Obligations.ProgramImageIsReadFourBytesAtATime : Prop :=
  (∀ image : List Byte, image.length % 4 ≠ 0 →
    programOfImage image = none ∧ ∀ c m md ts, boot image c m md ts = none) ∧
  (∀ image : List Byte, image.length % 4 = 0 →
    ∃ p, programOfImage image = some p ∧ 4 * p.length = image.length ∧
      (∀ k, k < p.length → ∃ b1 b2 b3 b4, image[4 * k]? = some b1 ∧ image[4 * k + 1]? = some b2 ∧
        image[4 * k + 2]? = some b3 ∧ image[4 * k + 3]? = some b4 ∧ p[k]? = some (wordOf b1 b2 b3 b4)) ∧
      ∀ c m md ts, ∃ s, boot image c m md ts = some s ∧ s.prog = p ∧ s.pc = 0 ∧ s.run = .running ∧
        (∀ r, s.x r = 0) ∧ s.mem = m ∧ s.mode = md ∧ s.config = c ∧ s.turns = ts) ∧
  ∀ c m md, ∃ s t, boot [] c m md [] = some s ∧ step s = .next t ∧ t.run = .waiting ∧ t.pc = 0 ∧ ∀ r, t.x r = 0

/-! ### What each instruction does -/

/-- R120 with R83 (decision D30): NOP completes in every state and only advances `pc`; every word with first byte 0x00
is NOP, whatever its three fill bytes hold, and it pauses in single-step mode like any instruction; a program of `L` such
words in normal mode ends in `waiting` with `pc = 4 * L` and everything else as after power-up. -/
def Obligations.NopOnlyAdvancesWhateverItsFillBytes : Prop :=
  (∀ s : State, exec .nop s = .next { s with pc := s.pc + 4 }) ∧
  (∀ c : Config, encode c .nop = 0x00000000#32) ∧
  (∀ (c : Config) (b2 b3 b4 : Byte), decode c (wordOf 0x00#8 b2 b3 b4) = .ok .nop) ∧
  (∀ (s : State) (b2 b3 b4 : Byte), s.atMachineStep → s.fetch = some (wordOf 0x00#8 b2 b3 b4) →
    step s = .next { s with
      pc := s.pc + 4
      turns := s.turns.tail
      run := if s.mode = .singleStep then .paused else .running }) ∧
  ∀ l : Launch, l.mode = .normal → l.turns = [] → (∀ w ∈ l.prog, ∃ b2 b3 b4, w = wordOf 0x00#8 b2 b3 b4) →
    steps (l.prog.length + 1) (State.powerUp l) =
      .next { State.powerUp l with pc := 4 * l.prog.length, run := .waiting }

/-- R150 (decisions D8, D25): the encoding of ADD, its result for all registers and contents, and its errors at decode
in the order of the operands.  R150 names no error at execution: that `exec` itself raises on a bad register byte, which
no decoded instruction holds, is the model's choice (assumption 7, DEDUCED). -/
def Obligations.AddWritesTheSumModulo2Pow32 : Prop :=
  (∀ (c : Config) (d s t : GReg), decode c (wordOf 0x40#8 d.name s.name t.name) = .ok (.add d.name s.name t.name)) ∧
  (∀ (st : State) (d s t : GReg),
    exec (.add d.name s.name t.name) st = .next { st with
      regs := st.regs.set d (BitVec.ofNat 32 (((st.x s).toNat + (st.x t).toNat) % 2 ^ 32))
      pc := st.pc + 4 }) ∧
  ∀ (st : State) (d s t : RegByte) (e : ErrorCause),
    firstBadRegister [(.first, d), (.second, s), (.third, t)] = some e →
      decode st.config (wordOf 0x40#8 d s t) = .error e ∧
      exec (.add d s t) st = .next { st with run := .error e }

/-- R151 (decisions D8, D9, D10, D25) with R91: the encoding of ADDI, its result under both values of `IMM8_EXT`, and
its errors at decode; the number is never checked.  R151 names no error at execution: that `exec` itself raises on a bad
register byte, which no decoded instruction holds, is the model's choice (assumption 7, DEDUCED). -/
def Obligations.AddiWritesTheSumWithTheWidenedNumber : Prop :=
  (∀ (c : Config) (d s : GReg) (n8 : Byte), decode c (wordOf 0x41#8 d.name s.name n8) = .ok (.addi d.name s.name n8)) ∧
  (∀ (st : State) (d s : GReg) (n8 : Byte),
    exec (.addi d.name s.name n8) st = .next { st with
      regs := st.regs.set d (BitVec.ofNat 32 (((st.x s).toNat +
        (if st.config.immExt = .zero ∨ n8.toNat < 0x80 then n8.toNat else n8.toNat + 0xFFFFFF00)) % 2 ^ 32))
      pc := st.pc + 4 }) ∧
  ∀ (st : State) (d s : RegByte) (n8 : Byte) (e : ErrorCause),
    firstBadRegister [(.first, d), (.second, s)] = some e →
      decode st.config (wordOf 0x41#8 d s n8) = .error e ∧
      exec (.addi d s n8) st = .next { st with run := .error e }

/-- R131 (decisions D11, D13 to D16, D25) with R52: the encoding of LOADM; at an aligned sum inside memory it puts the
four bytes at the full sum of B and I into R, the first most significant; its errors in their order, each without any
other effect.  R131 puts the register errors at decode: that `exec` itself raises them, on bytes that no decoded
instruction holds, is the model's choice (assumption 7, DEDUCED). -/
def Obligations.LoadmReadsTheWordAtTheFullSum : Prop :=
  (∀ (c : Config) (r b i : GReg), c.wf = true →
    decode c (wordOf c.opcLoadm r.name b.name i.name) = .ok (.loadm r.name b.name i.name)) ∧
  (∀ (s : State) (r b i : GReg) (ea : Nat), ea = (s.x b).toNat + (s.x i).toNat → ea % 4 = 0 →
    ea + 3 < s.config.memSize →
    exec (.loadm r.name b.name i.name) s = .next { s with
      regs := s.regs.set r (wordOf (s.mem.readByte ea) (s.mem.readByte (ea + 1)) (s.mem.readByte (ea + 2))
        (s.mem.readByte (ea + 3)))
      pc := s.pc + 4 }) ∧
  (∀ (s : State) (r b i : RegByte) (e : ErrorCause), s.config.wf = true →
    firstBadRegister [(.first, r), (.second, b), (.third, i)] = some e →
      decode s.config (wordOf s.config.opcLoadm r b i) = .error e ∧
      exec (.loadm r b i) s = .next { s with run := .error e }) ∧
  ∀ (s : State) (r b i : GReg) (ea : Nat), ea = (s.x b).toNat + (s.x i).toNat →
    (ea % 4 ≠ 0 → exec (.loadm r.name b.name i.name) s = .next { s with run := .error (.misalignedAccess ea) }) ∧
    (ea % 4 = 0 → s.config.memSize ≤ ea + 3 →
      exec (.loadm r.name b.name i.name) s = .next { s with run := .error (.memoryRange ea) })

/-- R132 (decisions D11, D13 to D16) with R52: the encoding of STOREM; at an aligned sum inside memory it puts all 32 bit
of R there, the most significant byte first, and changes no other byte and no register; its errors in their order, each
without any other effect.  R132 puts the register errors at decode: that `exec` itself raises them, on bytes that no
decoded instruction holds, is the model's choice (assumption 7, DEDUCED). -/
def Obligations.StoremWritesTheFourBytesAtTheFullSum : Prop :=
  (∀ (c : Config) (r b i : GReg), c.wf = true →
    decode c (wordOf c.opcStorem r.name b.name i.name) = .ok (.storem r.name b.name i.name)) ∧
  (∀ (s : State) (r b i : GReg) (ea : Nat), s.mem.wf = true → ea = (s.x b).toNat + (s.x i).toNat → ea % 4 = 0 →
    ea + 3 < s.config.memSize →
    ∃ m : Memory, exec (.storem r.name b.name i.name) s = .next { s with mem := m, pc := s.pc + 4 } ∧
      m.wf = true ∧
      s.x r = wordOf (m.readByte ea) (m.readByte (ea + 1)) (m.readByte (ea + 2)) (m.readByte (ea + 3)) ∧
      ∀ a, a < ea ∨ ea + 3 < a → m.readByte a = s.mem.readByte a) ∧
  (∀ (s : State) (r b i : RegByte) (e : ErrorCause), s.config.wf = true →
    firstBadRegister [(.first, r), (.second, b), (.third, i)] = some e →
      decode s.config (wordOf s.config.opcStorem r b i) = .error e ∧
      exec (.storem r b i) s = .next { s with run := .error e }) ∧
  ∀ (s : State) (r b i : GReg) (ea : Nat), ea = (s.x b).toNat + (s.x i).toNat →
    (ea % 4 ≠ 0 → exec (.storem r.name b.name i.name) s = .next { s with run := .error (.misalignedAccess ea) }) ∧
    (ea % 4 = 0 → s.config.memSize ≤ ea + 3 →
      exec (.storem r.name b.name i.name) s = .next { s with run := .error (.memoryRange ea) })

/-- R194 and R195 (decisions D15, D16): LOADM and STOREM with a sum that is no multiple of 4, or else with a word not
wholly inside memory, take the error with the sum recorded and change nothing else. -/
def Obligations.MisalignedOrOutsideAccessOnlyRaises : Prop :=
  ∀ (s : State) (r b x : GReg) (i : Instr) (ea : Nat),
    i = .loadm r.name b.name x.name ∨ i = .storem r.name b.name x.name → ea = (s.x b).toNat + (s.x x).toNat →
    (ea % 4 ≠ 0 → exec i s = .next { s with run := .error (.misalignedAccess ea) }) ∧
    (ea % 4 = 0 → s.config.memSize ≤ ea + 3 → exec i s = .next { s with run := .error (.memoryRange ea) })

/-- R88 with R191, R192 (decisions D6, D7): the first register byte in the order of the format that is 0x00 or above
0x20 gives the error at decode, whether the operand is read or written; no other byte of an instruction is checked.  The
rules check at decode only: that `exec` gives the same error, and changes nothing else, on bytes that no decoded
instruction holds is the model's choice (assumption 7, DEDUCED). -/
def Obligations.FirstBadRegisterByteGivesTheError : Prop :=
  ∀ (s : State) (i : Instr), s.config.wf = true →
    (∀ e, firstBadRegister i.registerBytes = some e →
      decode s.config (encode s.config i) = .error e ∧ exec i s = .next { s with run := .error e }) ∧
    (firstBadRegister i.registerBytes = none → decode s.config (encode s.config i) = .ok i)

/-- The laws of the one arithmetic operation (42_arithmetic.md "Integer arithmetic laws", decision D8). -/
def Obligations.AdditionLaws : Prop :=
  ∀ a b c : Word, (add32 a b).toNat = (a.toNat + b.toNat) % 2 ^ 32 ∧ add32 a b = add32 b a ∧
    add32 (add32 a b) c = add32 a (add32 b c) ∧ add32 a 0 = a ∧
    add32 a (BitVec.ofNat 32 (2 ^ 32 - a.toNat)) = 0 ∧
    ∀ k : Nat, k ≤ a.toNat → add32 a (BitVec.ofNat 32 (2 ^ 32 - k)) = BitVec.ofNat 32 (a.toNat - k)

/-- R91: below 0x80 the result of ADDI does not depend on `IMM8_EXT`, from 0x80 on it does. -/
def Obligations.ImmediateExtensionMattersFrom0x80On : Prop :=
  ∀ (s z g : State) (d a : GReg) (n8 : Byte),
    z = { s with config := { s.config with immExt := .zero } } →
    g = { s with config := { s.config with immExt := .sign } } →
    ∃ tz tg, exec (.addi d.name a.name n8) z = .next tz ∧ exec (.addi d.name a.name n8) g = .next tg ∧
      (tz.x d = tg.x d ↔ n8.toNat < 0x80) ∧ (∀ r, r ≠ d → tz.x r = tg.x r) ∧ tz.mem = tg.mem ∧ tz.pc = tg.pc ∧
      tz.run = tg.run

/-- The two open opcodes (decision D11) play no part in what an instruction does: with the same `MEM_SIZE` and
`IMM8_EXT` the same next state is reached. -/
def Obligations.OpenOpcodesDoNotAffectExecution : Prop :=
  ∀ (i : Instr) (s t : State) (c : Config), c.memSize = s.config.memSize → c.immExt = s.config.immExt →
    exec i s = .next t → exec i { s with config := c } = .next { t with config := c }

/-- A word stored is the word loaded from the same address by the next instruction (R62, R236), into any register. -/
def Obligations.StoreThenLoadReturnsTheStoredWord : Prop :=
  ∀ (s : State) (r r' b i : GReg), s.mem.wf = true → ((s.x b).toNat + (s.x i).toNat) % 4 = 0 →
    (s.x b).toNat + (s.x i).toNat + 3 < s.config.memSize →
    ∃ t u, exec (.storem r.name b.name i.name) s = .next t ∧ exec (.loadm r'.name b.name i.name) t = .next u ∧
      u.x r' = s.x r ∧ u.mem = t.mem ∧ u.pc = s.pc + 8

/-! ### Frames -/

/-- Every instruction, on all operands, either completes with `pc` advanced by 4 and the run state kept, or takes an
error that changes nothing but the run state (R29, R199, R237); parameters, program, mode and turns are kept.  That
`exec` answers a next state also on operand bytes that the decoder never gives, where R88 has already raised at decode, is
the model's choice (assumption 7, DEDUCED). -/
def Obligations.EveryInstructionCompletesOrOnlyRaises : Prop :=
  ∀ (i : Instr) (s : State), ∃ t, exec i s = .next t ∧
    ((t.pc = s.pc + 4 ∧ t.run = s.run ∧ t.config = s.config ∧ t.prog = s.prog ∧ t.mode = s.mode ∧ t.turns = s.turns) ∨
      ∃ e, t = { s with run := .error e })

/-- Frame of NOP, ADD and ADDI, on all operand bytes (assumption 7 for those the decoder never gives): no byte of
memory changes, no register but the destination (NOP has none), and neither parameters, program, mode nor turns. -/
def Obligations.RegisterInstructionsFrame : Prop :=
  ∀ (i : Instr) (s t : State),
    (i = .nop ∨ (∃ d a b, i = .add d a b) ∨ ∃ d a n8, i = .addi d a n8) → exec i s = .next t →
    (∀ a, t.mem.readByte a = s.mem.readByte a) ∧ (∀ r : GReg, i.destination ≠ some r.name → t.x r = s.x r) ∧
    t.config = s.config ∧ t.prog = s.prog ∧ t.mode = s.mode ∧ t.turns = s.turns ∧
    (t.run = s.run ∨ ∃ e, t.run = .error e ∧ t.regs = s.regs)

/-- Frame of LOADM, on all operand bytes (assumption 7 for those the decoder never gives): no byte of memory changes
and no register but R. -/
def Obligations.LoadmFrame : Prop :=
  ∀ (r b i : RegByte) (s t : State), exec (.loadm r b i) s = .next t →
    (∀ a, t.mem.readByte a = s.mem.readByte a) ∧ (∀ q : GReg, r ≠ q.name → t.x q = s.x q) ∧
    t.config = s.config ∧ t.prog = s.prog ∧ t.mode = s.mode ∧ t.turns = s.turns ∧
    (t.run = s.run ∨ ∃ e, t.run = .error e ∧ t.regs = s.regs)

/-- Frame of STOREM, on all operand bytes (assumption 7 for those the decoder never gives): no register changes; if it
stores, no byte outside the four at the address stored to, which is the effective address of `State.ea`; if it does not,
no byte at all. -/
def Obligations.StoremFrame : Prop :=
  ∀ (r b i : RegByte) (s t : State), s.mem.wf = true → exec (.storem r b i) s = .next t →
    (∀ a, s.storeAddress r b i = some a → ∀ a', a' < a ∨ a + 3 < a' → t.mem.readByte a' = s.mem.readByte a') ∧
    (s.storeAddress r b i = none → ∀ a', t.mem.readByte a' = s.mem.readByte a') ∧
    t.regs = s.regs ∧ t.config = s.config ∧ t.prog = s.prog ∧ t.mode = s.mode ∧ t.turns = s.turns ∧
    (t.run = s.run ∨ ∃ e, t.run = .error e ∧ t.mem = s.mem)

/-! ### The instruction cycle, modes, errors, the host -/

/-- A step runs the instruction that the word at `pc` decodes to, and pauses after it in single-step mode. -/
def Obligations.StepRunsTheDecodedInstruction : Prop :=
  ∀ (s t : State) (k : Nat) (w : Word) (i : Instr), s.run = .running → s.hostTurn = none → s.pc = 4 * k →
    s.prog[k]? = some w → decode s.config w = .ok i → exec i { s with turns := s.turns.tail } = .next t →
    step s = .next (if t.run = .running ∧ t.mode = .singleStep then { t with run := .paused } else t)

/-- R34 (decisions D2, D3, D5): the whole cycle of a machine whose turn it is, in each run state, and the two moves of
the host.  `u` is the state with the turn used up.  The model's choices in it: the turn and its use (assumption 2, DESIGN
CHOICE), that a run state without a step answers the fault named after it (assumption 8, DEDUCED), and that switching off
keeps all other state, of which R205 says nothing (assumption 9, DESIGN CHOICE). -/
def Obligations.InstructionCycleOfTheMachineAndMovesOfTheHost : Prop :=
  (∀ s : State, s.hostTurn = some .signal → s.run = .paused →
    step s = .next { s with run := .running, turns := s.turns.tail }) ∧
  (∀ s : State, s.hostTurn = some .switchOff → step s = .next { s with run := .off, turns := s.turns.tail }) ∧
  ∀ s u : State, s.hostTurn = none → u = { s with turns := s.turns.tail } →
    (s.run = .running → s.pc = 4 * s.prog.length → step s = .next { u with run := .waiting }) ∧
    (∀ w e, s.run = .running → s.fetch = some w → decode s.config w = .error e →
      step s = .next { u with run := .error e }) ∧
    (∀ w i t e, s.run = .running → s.fetch = some w → decode s.config w = .ok i → exec i u = .next t →
      t.run = .error e → step s = .next { u with run := .error e }) ∧
    (∀ w i t, s.run = .running → s.fetch = some w → decode s.config w = .ok i → exec i u = .next t →
      t.run = .running → t.pc = s.pc + 4 ∧
        step s = .next { t with run := if s.mode = .singleStep then .paused else .running }) ∧
    (s.run = .paused → step s = .fault .awaitingSignal) ∧
    (s.run = .waiting → step s = .fault .runEnded) ∧
    (∀ e, s.run = .error e → step s = .fault (.stoppedByError e)) ∧
    (s.run = .off → step s = .fault .switchedOff)

/-- R199 (decision D5): a step that ends in an error changes the run state and nothing else, and a machine in error has
no step; the only way on is that the host switches it off.  That `step` answers the fault `stoppedByError` where R199 has
no step is the model's choice (assumption 8, DEDUCED). -/
def Obligations.ErrorEntryChangesOnlyTheRunState : Prop :=
  (∀ (s t : State) (e : ErrorCause), s.run = .running → step s = .next t → t.run = .error e →
    t.regs = s.regs ∧ t.mem = s.mem ∧ t.pc = s.pc ∧ t.mode = s.mode ∧ t.prog = s.prog ∧ t.config = s.config) ∧
  (∀ (s : State) (e : ErrorCause), s.run = .error e → s.hostTurn = none → step s = .fault (.stoppedByError e)) ∧
  ∀ (s t : State) (e : ErrorCause), s.run = .error e → step s = .next t →
    t.run = .error e ∨ (t.run = .off ∧ s.hostTurn = some .switchOff)

/-- R198 (decision D7): when several conditions hold at once, the error is the first of: illegal opcode; bad register
byte in the order of the bytes; misaligned access; access outside memory. -/
def Obligations.ErrorPriority : Prop :=
  ∀ (s : State) (b1 b2 b3 b4 : Byte), s.config.wf = true → s.atMachineStep →
    s.fetch = some (wordOf b1 b2 b3 b4) →
    ∃ t, step s = .next t ∧
      (b1 ≠ 0x00#8 → b1 ≠ 0x40#8 → b1 ≠ 0x41#8 → b1 ≠ s.config.opcLoadm → b1 ≠ s.config.opcStorem →
        t.run = .error (.illegalOpcode b1)) ∧
      (∀ e, b1 = 0x40#8 ∨ b1 = s.config.opcLoadm ∨ b1 = s.config.opcStorem →
        firstBadRegister [(.first, b2), (.second, b3), (.third, b4)] = some e → t.run = .error e) ∧
      (∀ e, b1 = 0x41#8 → firstBadRegister [(.first, b2), (.second, b3)] = some e → t.run = .error e) ∧
      (∀ (r b i : GReg) (ea : Nat), b1 = s.config.opcLoadm ∨ b1 = s.config.opcStorem →
        b2 = r.name → b3 = b.name → b4 = i.name → ea = (s.x b).toNat + (s.x i).toNat →
        (ea % 4 ≠ 0 → t.run = .error (.misalignedAccess ea)) ∧
        (ea % 4 = 0 → s.config.memSize ≤ ea + 3 → t.run = .error (.memoryRange ea)) ∧
        (ea % 4 = 0 → ea + 3 < s.config.memSize → t.noError = true)) ∧
      (b1 = 0x00#8 → t.noError = true) ∧
      (b1 = 0x40#8 → firstBadRegister [(.first, b2), (.second, b3), (.third, b4)] = none → t.noError = true) ∧
      (b1 = 0x41#8 → firstBadRegister [(.first, b2), (.second, b3)] = none → t.noError = true)

/-- R234 (decision D3): the run ends where `pc = 4 * L`; `waiting` is the only final run state, `error` and `off` are
terminal and not final, `paused` is not terminal; a machine in a terminal state keeps registers, memory and `pc`,
whatever signals arrive, and unless it is switched off what the host reads back of it.  That State keeps them through
switching off too, where R205 says that nothing is observable, is the model's choice (assumption 9, DESIGN CHOICE), as is
the turn used up (assumption 2, DESIGN CHOICE). -/
def Obligations.RunEndsInWaitingAndKeepsItsState : Prop :=
  (∀ s : State, s.atMachineStep → s.pc = 4 * s.prog.length →
    step s = .next { s with run := .waiting, turns := s.turns.tail }) ∧
  (∀ s : State, s.final = true ↔ s.run = .waiting) ∧
  (∀ s : State, s.terminal = true ↔ s.run = .waiting ∨ s.run = .off ∨ ∃ e, s.run = .error e) ∧
  ∀ s t : State, s.terminal = true → step s = .next t →
    t.regs = s.regs ∧ t.mem = s.mem ∧ t.pc = s.pc ∧ t.terminal = true ∧
      (t.run = s.run ∧ t.readBack = s.readBack ∨ t.run = .off)

/-- The moves of the host (R204, R205, R235; decisions D32, D33): the signal takes `paused` to `running` and is ignored
in every other run state, switching off leads to `off` from every run state, and nothing else changes.  The turn used up
(assumption 2) and that switching off keeps all other state (assumption 9) are the model's choices. -/
def Obligations.HostMovesChangeOnlyTheRunState : Prop :=
  ∀ (s : State) (m : HostMove), s.hostTurn = some m →
    ∃ t, step s = .next t ∧ t = { s with run := t.run, turns := s.turns.tail } ∧
      (m = .signal → s.run = .paused → t.run = .running) ∧
      (m = .signal → s.run ≠ .paused → t.run = s.run) ∧
      (m = .switchOff → t.run = .off)

/-- In single-step mode (R204) an instruction that completes pauses the machine; in normal mode (R203) no step pauses
it, and it runs on until `waiting` or an error. -/
def Obligations.ModeDecidesWhetherTheMachinePauses : Prop :=
  ∀ s t : State, s.atMachineStep → step s = .next t →
    (s.mode = .singleStep → t.run = .paused ∨ t.run = .waiting ∨ ∃ e, t.run = .error e) ∧
    (s.mode = .normal → t.run = .running ∨ t.run = .waiting ∨ ∃ e, t.run = .error e) ∧
    (t.run = .waiting ↔ s.pc = 4 * s.prog.length)

/-- Both modes compute the same (R203, R204): a run in normal mode and the run in single-step mode in which the host
answers each machine step with its signal end in the same registers, memory, `pc` and run state. -/
def Obligations.SingleStepRunMatchesNormalRun : Prop :=
  ∀ (k : Nat) (s t : State), s.mode = .normal → s.run = .running → s.turns = [] → steps k s = .next t →
    steps (2 * k) { s with mode := .singleStep, turns := signalled k } = .next { t with mode := .singleStep }

/-- Where a step has no next state: exactly on the machine's turn in a run state in which the spec gives it none (R34).
No step refuses. -/
def Obligations.StepStopsExactlyWhereTheSpecHasNoStep : Prop :=
  ∀ s : State, s.inv = true →
    ((∃ t, step s = .next t) ↔ s.run = .running ∨ s.hostTurn ≠ none) ∧ ∀ r, step s ≠ .refused r

/-! ### Whole-machine rules -/

/-- The invariant is kept by every step from every state that meets it: parameters within R3, `pc` a multiple of 4
within 0 .. 4 * L, canonical memory inside `MEM_SIZE`, and a run state that fits mode, `pc` and cause. -/
def Obligations.StepKeepsTheInvariant : Prop :=
  ∀ s t : State, s.inv = true → step s = .next t → t.inv = true

/-- No step changes the program store (R30, R65), the mode (R33) or the parameters (R3). -/
def Obligations.ProgramModeAndParametersNeverChange : Prop :=
  ∀ s t : State, step s = .next t → t.prog = s.prog ∧ t.mode = s.mode ∧ t.config = s.config

/-- R24: every general register is 0 after power-up, and a step changes one only if it executes an instruction that has
it as its destination register; errors, the end of the run and the host's moves change none. -/
def Obligations.RegistersStartZeroAndChangeOnlyAsDestination : Prop :=
  (∀ (l : Launch) (r : GReg), (State.powerUp l).x r = 0) ∧
  ∀ (s t : State) (r : GReg), step s = .next t → t.x r ≠ s.x r →
    s.run = .running ∧ s.hostTurn = none ∧ t.noError = true ∧
      ∃ i, s.nextInstr = some i ∧ i.destination = some r.name

/-- R50: only LOADM and STOREM reach memory.  A step changes a byte only if it executes a STOREM whose four bytes at
`B + I` contain it, and what an instruction other than these two does is the same whatever memory holds. -/
def Obligations.OnlyLoadAndStoreReachMemory : Prop :=
  (∀ (s t : State) (a : Nat), s.mem.wf = true → step s = .next t → t.mem.readByte a ≠ s.mem.readByte a →
    s.run = .running ∧ s.hostTurn = none ∧ ∃ r b i : GReg, s.nextInstr = some (.storem r.name b.name i.name) ∧
      (s.x b).toNat + (s.x i).toNat ≤ a ∧ a ≤ (s.x b).toNat + (s.x i).toNat + 3) ∧
  ∀ (i : Instr) (s t : State) (m : Memory), (∀ r b x, i ≠ .loadm r b x) → (∀ r b x, i ≠ .storem r b x) →
    exec i s = .next t → exec i { s with mem := m } = .next { t with mem := m }

/-- `pc` moves by one instruction when an instruction completes and not at all otherwise (R29), and stays within
0 .. 4 * L (R31).  That switching off keeps `pc` is the model's choice (assumption 9, DESIGN CHOICE). -/
def Obligations.PcAdvancesExactlyWhenAnInstructionCompletes : Prop :=
  ∀ s t : State, s.inv = true → step s = .next t →
    (s.atMachineStep → (t.run = .running ∨ t.run = .paused) → t.pc = s.pc + 4) ∧
    (s.atMachineStep → (t.run = .waiting ∨ ∃ e, t.run = .error e) → t.pc = s.pc) ∧
    (s.hostTurn ≠ none → t.pc = s.pc) ∧ t.pc ≤ 4 * t.prog.length

/-- Every program ends (R172, R238): in normal mode, with no move of the host, a running machine is in `waiting` or in
an error after at most one step more than it has instructions left, whatever the program is. -/
def Obligations.EveryNormalRunEndsWithinItsLength : Prop :=
  ∀ s : State, s.inv = true → s.run = .running → s.mode = .normal → s.turns = [] →
    ∃ (k : Nat) (t : State), k ≤ s.prog.length - s.pc / 4 + 1 ∧ steps k s = .next t ∧
      (t.run = .waiting ∨ ∃ e, t.run = .error e)
end

