-- ==== Sys2Proof/Laws/Decode.lean ====
section
/-! SUPPORT. The bytes of a word, the register check, and what each answer of the decoder says of the word. -/

namespace Sys2Proof

/-! ### Bytes -/

/-- Each bit of a word comes from the byte of its weight. -/
theorem getLsbD_ofBytes (a b c d : Byte) (i : Nat) : (ofBytes a b c d).getLsbD i =
    if i < 8 then d.getLsbD i else if i - 8 < 8 then c.getLsbD (i - 8)
    else if i - 8 - 8 < 8 then b.getLsbD (i - 8 - 8) else a.getLsbD (i - 8 - 8 - 8) := by
  change BitVec.getLsbD (w := 8 + 8 + 8 + 8) (a ++ b ++ c ++ d) i = _
  rw [BitVec.getLsbD_append, BitVec.getLsbD_append, BitVec.getLsbD_append]

@[simp] theorem b1_ofBytes (a b c d : Byte) : (ofBytes a b c d).b1 = a := by
  apply BitVec.eq_of_getLsbD_eq
  intro i hi
  simp only [Word.b1, BitVec.getLsbD_extractLsb', hi, decide_true, Bool.true_and, getLsbD_ofBytes]
  rw [if_neg (by omega), if_neg (by omega), if_neg (by omega), show 24 + i - 8 - 8 - 8 = i by omega]

@[simp] theorem b2_ofBytes (a b c d : Byte) : (ofBytes a b c d).b2 = b := by
  apply BitVec.eq_of_getLsbD_eq
  intro i hi
  simp only [Word.b2, BitVec.getLsbD_extractLsb', hi, decide_true, Bool.true_and, getLsbD_ofBytes]
  rw [if_neg (by omega), if_neg (by omega), if_pos (by omega), show 16 + i - 8 - 8 = i by omega]

@[simp] theorem b3_ofBytes (a b c d : Byte) : (ofBytes a b c d).b3 = c := by
  apply BitVec.eq_of_getLsbD_eq
  intro i hi
  simp only [Word.b3, BitVec.getLsbD_extractLsb', hi, decide_true, Bool.true_and, getLsbD_ofBytes]
  rw [if_neg (by omega), if_pos (by omega), show 8 + i - 8 = i by omega]

@[simp] theorem b4_ofBytes (a b c d : Byte) : (ofBytes a b c d).b4 = d := by
  apply BitVec.eq_of_getLsbD_eq
  intro i hi
  simp only [Word.b4, BitVec.getLsbD_extractLsb', hi, decide_true, Bool.true_and, getLsbD_ofBytes]
  rw [if_pos (by omega), Nat.zero_add]

/-- A word is its four bytes. -/
theorem ofBytes_bytes (w : Word) : ofBytes w.b1 w.b2 w.b3 w.b4 = w := by
  apply BitVec.eq_of_getLsbD_eq
  intro i hi
  simp only [getLsbD_ofBytes, Word.b1, Word.b2, Word.b3, Word.b4, BitVec.getLsbD_extractLsb']
  by_cases h4 : i < 8
  · simp [h4]
  · by_cases h3 : i - 8 < 8
    · simp [h4, h3, show 8 + (i - 8) = i by omega]
    · by_cases h2 : i - 8 - 8 < 8
      · simp [h4, h3, h2, show 16 + (i - 8 - 8) = i by omega]
      · simp [h4, h3, h2, show i - 8 - 8 - 8 < 8 by omega, show 24 + (i - 8 - 8 - 8) = i by omega]

theorem b1_toNat (w : Word) : w.b1.toNat = w.toNat / 2 ^ 24 := by
  have := w.isLt
  simp only [Word.b1, BitVec.extractLsb'_toNat, Nat.shiftRight_eq_div_pow]
  omega

/-! ### The register check -/

/-- Everything `reg` can answer. -/
theorem reg_cases (p : Position) (b : RegByte) :
    (b = 0x00#8 ∧ reg p b = .error (.zeroRegister p)) ∨
    (b ≠ 0x00#8 ∧ 0x20 < b.toNat ∧ reg p b = .error (.invalidRegister p b)) ∨
    (regByteOk b = true ∧ ∃ r : GReg, reg p b = .ok r ∧ r.name = b) := by
  unfold reg
  split
  · next h => exact .inl ⟨h, rfl⟩
  · next h =>
    split
    · next h' =>
      have hpos : b.toNat ≠ 0 := fun e => h (BitVec.eq_of_toNat_eq (by simpa using e))
      refine .inr (.inr ⟨?_, _, rfl, ?_⟩)
      · simp [regByteOk]; omega
      · apply BitVec.eq_of_toNat_eq
        have := b.isLt
        simp [GReg.name]; omega
    · next h' => exact .inr (.inl ⟨h, by omega, rfl⟩)

@[simp] theorem name_toNat (r : GReg) : r.name.toNat = r.val + 1 := by
  have := r.isLt
  simp [GReg.name]; omega

@[simp] theorem regByteOk_name (r : GReg) : regByteOk r.name = true := by
  have := r.isLt
  simp [regByteOk]

theorem name_injective {r r' : GReg} (h : r.name = r'.name) : r = r' := by
  have := congrArg BitVec.toNat h
  simp only [name_toNat] at this
  exact Fin.ext (by omega)

@[simp] theorem reg_name (p : Position) (r : GReg) : reg p r.name = .ok r := by
  obtain ⟨h, -⟩ | ⟨-, h, -⟩ | ⟨-, r', h, hn⟩ := reg_cases p r.name
  · have := congrArg BitVec.toNat h; simp at this
  · have := r.isLt; simp at h; omega
  · rw [h, name_injective hn]

@[simp] theorem regs2_name (r1 r2 : GReg) : regs2 r1.name r2.name = .ok (r1, r2) := by simp [regs2]

@[simp] theorem regs3_name (r1 r2 r3 : GReg) : regs3 r1.name r2.name r3.name = .ok (r1, r2, r3) := by simp [regs3]

theorem reg_ok {p : Position} {b : RegByte} {r : GReg} (h : reg p b = .ok r) : b = r.name := by
  obtain ⟨-, e⟩ | ⟨-, -, e⟩ | ⟨-, r', e, hn⟩ := reg_cases p b
  · rw [e] at h; cases h
  · rw [e] at h; cases h
  · rw [e] at h; cases h; exact hn.symm

theorem regs2_ok {b2 b3 : RegByte} {r1 r2 : GReg} (h : regs2 b2 b3 = .ok (r1, r2)) : b2 = r1.name ∧ b3 = r2.name := by
  unfold regs2 at h
  split at h
  · cases h
  · next h1 =>
    split at h
    · cases h
    · next h2 => cases h; exact ⟨reg_ok h1, reg_ok h2⟩

theorem regs3_ok {b2 b3 b4 : RegByte} {r1 r2 r3 : GReg} (h : regs3 b2 b3 b4 = .ok (r1, r2, r3)) :
    b2 = r1.name ∧ b3 = r2.name ∧ b4 = r3.name := by
  unfold regs3 at h
  split at h
  · cases h
  · next h12 =>
    split at h
    · cases h
    · next h3 => cases h; exact ⟨(regs2_ok h12).1, (regs2_ok h12).2, reg_ok h3⟩

/-- A well-formed register byte is the machine name of a register. -/
theorem exists_name_of_regByteOk {b : RegByte} (h : regByteOk b = true) : ∃ r : GReg, b = r.name := by
  obtain ⟨e, -⟩ | ⟨-, e, -⟩ | ⟨-, r, -, hn⟩ := reg_cases .first b
  · subst e; simp [regByteOk] at h
  · simp [regByteOk] at h; omega
  · exact ⟨r, hn.symm⟩

/-! ### The spec's readings of a word and of a list of register bytes -/

theorem ofBytes_toNat (a b c d : Byte) :
    (ofBytes a b c d).toNat = a.toNat * 2 ^ 24 + b.toNat * 2 ^ 16 + c.toNat * 2 ^ 8 + d.toNat := by
  have h1 := congrArg BitVec.toNat (b1_ofBytes a b c d)
  have h2 := congrArg BitVec.toNat (b2_ofBytes a b c d)
  have h3 := congrArg BitVec.toNat (b3_ofBytes a b c d)
  have h4 := congrArg BitVec.toNat (b4_ofBytes a b c d)
  simp only [Word.b1, Word.b2, Word.b3, Word.b4, BitVec.extractLsb'_toNat, Nat.shiftRight_eq_div_pow] at h1 h2 h3 h4
  have := (ofBytes a b c d).isLt
  omega

/-- Reading the bytes by weight is concatenating them, the first most significant. -/
theorem wordOf_eq_ofBytes (a b c d : Byte) : wordOf a b c d = ofBytes a b c d := by
  apply BitVec.eq_of_toNat_eq
  rw [ofBytes_toNat, wordOf, BitVec.toNat_ofNat]
  have := a.isLt; have := b.isLt; have := c.isLt; have := d.isLt
  omega

theorem firstBadRegister_cons (p : Position) (b : RegByte) (rest : List (Position × RegByte)) :
    firstBadRegister ((p, b) :: rest) =
      match reg p b with
      | .error e => some e
      | .ok _ => firstBadRegister rest := by
  obtain ⟨h, e⟩ | ⟨h, h', e⟩ | ⟨h, r, e, -⟩ := reg_cases p b
  · rw [e]; simp [firstBadRegister, h]
  · rw [e]; simp only [firstBadRegister, if_neg h, if_pos h']
  · simp only [regByteOk, Bool.and_eq_true, decide_eq_true_eq] at h
    have h0 : b ≠ 0x00#8 := by rintro rfl; simp at h
    have h1 : ¬ 0x20 < b.toNat := by omega
    rw [e]; simp only [firstBadRegister, if_neg h0, if_neg h1]

/-- The check of two register bytes fails with the first bad one's error. -/
theorem regs2_error_iff (b2 b3 : RegByte) (e : ErrorCause) :
    regs2 b2 b3 = .error e ↔ firstBadRegister [(.first, b2), (.second, b3)] = some e := by
  rw [firstBadRegister_cons, firstBadRegister_cons, regs2]
  cases reg .first b2 <;> cases reg .second b3 <;> simp [firstBadRegister]

theorem regs2_ok_iff (b2 b3 : RegByte) :
    (∃ r, regs2 b2 b3 = .ok r) ↔ firstBadRegister [(.first, b2), (.second, b3)] = none := by
  rw [firstBadRegister_cons, firstBadRegister_cons, regs2]
  cases reg .first b2 <;> cases reg .second b3 <;> simp [firstBadRegister]

/-- The check of three register bytes fails with the first bad one's error. -/
theorem regs3_error_iff (b2 b3 b4 : RegByte) (e : ErrorCause) :
    regs3 b2 b3 b4 = .error e ↔ firstBadRegister [(.first, b2), (.second, b3), (.third, b4)] = some e := by
  rw [firstBadRegister_cons, firstBadRegister_cons, firstBadRegister_cons, regs3, regs2]
  cases reg .first b2 <;> cases reg .second b3 <;> cases reg .third b4 <;> simp [firstBadRegister]

theorem regs3_ok_iff (b2 b3 b4 : RegByte) :
    (∃ r, regs3 b2 b3 b4 = .ok r) ↔ firstBadRegister [(.first, b2), (.second, b3), (.third, b4)] = none := by
  rw [firstBadRegister_cons, firstBadRegister_cons, firstBadRegister_cons, regs3, regs2]
  cases reg .first b2 <;> cases reg .second b3 <;> cases reg .third b4 <;> simp [firstBadRegister]

/-! ### The decoder -/

theorem checked_ok {α : Type} {check : Except ErrorCause α} {i j : Instr} (h : checked check i = .ok j) :
    i = j ∧ ∃ a, check = .ok a := by
  unfold checked at h
  split at h
  · cases h
  · next a => cases h; exact ⟨rfl, a, rfl⟩

/-- Everything the decoder can accept: the opcode and the operand bytes of each answer. -/
theorem decode_ok {c : Config} {w : Word} {i : Instr} (h : decode c w = .ok i) :
    (w.b1 = 0x00#8 ∧ i = .nop) ∨
    (w.b1 = 0x40#8 ∧ i = .add w.b2 w.b3 w.b4 ∧ ∃ r, regs3 w.b2 w.b3 w.b4 = .ok r) ∨
    (w.b1 = 0x41#8 ∧ i = .addi w.b2 w.b3 w.b4 ∧ ∃ r, regs2 w.b2 w.b3 = .ok r) ∨
    (w.b1 = c.opcLoadm ∧ i = .loadm w.b2 w.b3 w.b4 ∧ ∃ r, regs3 w.b2 w.b3 w.b4 = .ok r) ∨
    (w.b1 = c.opcStorem ∧ i = .storem w.b2 w.b3 w.b4 ∧ ∃ r, regs3 w.b2 w.b3 w.b4 = .ok r) := by
  unfold decode at h
  split at h
  · next h1 => cases h; exact .inl ⟨h1, rfl⟩
  split at h
  · next h1 => obtain ⟨e, he⟩ := checked_ok h; exact .inr (.inl ⟨h1, e.symm, he⟩)
  split at h
  · next h1 => obtain ⟨e, he⟩ := checked_ok h; exact .inr (.inr (.inl ⟨h1, e.symm, he⟩))
  split at h
  · next h1 => obtain ⟨e, he⟩ := checked_ok h; exact .inr (.inr (.inr (.inl ⟨h1, e.symm, he⟩)))
  split at h
  · next h1 => obtain ⟨e, he⟩ := checked_ok h; exact .inr (.inr (.inr (.inr ⟨h1, e.symm, he⟩)))
  · cases h

/-- What R3 says of the open opcodes, as the decoder needs it: they meet no assigned opcode and not each other. -/
theorem Config.wf_opcodes {c : Config} (h : c.wf = true) :
    0x20 ≤ c.opcLoadm.toNat ∧ c.opcLoadm.toNat ≤ 0x3F ∧ 0x20 ≤ c.opcStorem.toNat ∧ c.opcStorem.toNat ≤ 0x3F ∧
      c.opcLoadm ≠ c.opcStorem := by
  simp only [Config.wf, loadStoreRange, Bool.and_eq_true, decide_eq_true_eq, bne_iff_ne] at h
  exact ⟨h.1.1.1.1, h.1.1.1.2, h.1.1.2.1, h.1.1.2.2, h.1.2⟩

/-- The open opcodes collide with no assigned opcode (R100). -/
theorem Config.wf_opcode_ne {c : Config} (h : c.wf = true) :
    c.opcLoadm ≠ 0x00#8 ∧ c.opcLoadm ≠ 0x40#8 ∧ c.opcLoadm ≠ 0x41#8 ∧
      c.opcStorem ≠ 0x00#8 ∧ c.opcStorem ≠ 0x40#8 ∧ c.opcStorem ≠ 0x41#8 := by
  obtain ⟨l1, l2, s1, s2, -⟩ := Config.wf_opcodes h
  refine ⟨?_, ?_, ?_, ?_, ?_, ?_⟩ <;> intro e <;> simp [e] at l1 l2 s1 s2

end Sys2Proof
end

