-- ==== Sys2Proof/Laws/Memory.lean ====
section
/-! SUPPORT. Data memory: read after write, and that every operation keeps the canonical form. -/

namespace Sys2Proof.Machine.Memory

/-! ### One byte -/

theorem readByte_listed (a : Nat) (b : Byte) (m : Memory) (a' : Nat) (h : readByte m a = unlisted) :
    readByte (listed a b m) a' = if a' = a then b else readByte m a' := by
  unfold listed
  split
  · next hb =>
    split
    · next e => rw [e, h, hb]
    · rfl
  · rfl

/-- An address below everything a canonical memory lists reads as unlisted. -/
theorem readByte_of_lt : ∀ {m : Memory} {lo a : Nat}, wfFrom lo m = true → a < lo → readByte m a = unlisted
  | [], _, _, _, _ => rfl
  | (k, v) :: m, lo, a, h, ha => by
    simp only [wfFrom, Bool.and_eq_true, decide_eq_true_eq] at h
    have : a ≠ k := by omega
    simp only [readByte, this, if_false]
    exact readByte_of_lt h.2 (by omega)

theorem readByte_writeByte : ∀ {m : Memory} {lo : Nat}, wfFrom lo m = true → ∀ (a : Nat) (b : Byte) (a' : Nat),
    readByte (writeByte m a b) a' = if a' = a then b else readByte m a'
  | [], _, _, a, b, a' => readByte_listed a b [] a' rfl
  | (k, v) :: m, lo, h, a, b, a' => by
    have hc := h
    simp only [wfFrom, Bool.and_eq_true, decide_eq_true_eq] at h
    unfold writeByte
    split
    · next hak =>
      refine readByte_listed a b _ a' (readByte_of_lt (lo := k) (m := (k, v) :: m) ?_ hak)
      simp only [wfFrom, Bool.and_eq_true, decide_eq_true_eq]
      exact ⟨⟨le_refl k, h.1.2⟩, h.2⟩
    · split
      · next hak =>
        rw [readByte_listed a b m a' (readByte_of_lt h.2 (by omega))]
        simp only [readByte, hak]
        split <;> rfl
      · next hak =>
        simp only [readByte, readByte_writeByte h.2 a b a']
        by_cases e : a' = k
        · have : a' ≠ a := by omega
          simp [e]; omega
        · simp [e]

theorem wfFrom_mono {m : Memory} {lo lo' : Nat} (h : wfFrom lo m = true) (hle : lo' ≤ lo) : wfFrom lo' m = true := by
  cases m with
  | nil => rfl
  | cons c m =>
    simp only [wfFrom, Bool.and_eq_true, decide_eq_true_eq] at h ⊢
    exact ⟨⟨by omega, h.1.2⟩, h.2⟩

theorem wfFrom_listed {m : Memory} {lo a : Nat} (b : Byte) (hlo : lo ≤ a) (h : wfFrom (a + 1) m = true) :
    wfFrom lo (listed a b m) = true := by
  unfold listed
  split
  · exact wfFrom_mono h (by omega)
  · next hb =>
    simp only [wfFrom, Bool.and_eq_true, decide_eq_true_eq, bne_iff_ne]
    exact ⟨⟨hlo, hb⟩, h⟩

theorem wfFrom_writeByte : ∀ {m : Memory} {lo a : Nat} (b : Byte), wfFrom lo m = true → lo ≤ a →
    wfFrom lo (writeByte m a b) = true
  | [], _, _, b, _, hlo => wfFrom_listed b hlo rfl
  | (k, v) :: m, lo, a, b, h, hlo => by
    simp only [wfFrom, Bool.and_eq_true, decide_eq_true_eq] at h
    unfold writeByte
    split
    · next hak =>
      refine wfFrom_listed b hlo ?_
      simp only [wfFrom, Bool.and_eq_true, decide_eq_true_eq]
      exact ⟨⟨by omega, h.1.2⟩, h.2⟩
    · split
      · next hak => exact wfFrom_listed b hlo (hak ▸ h.2)
      · next hak =>
        simp only [wfFrom, Bool.and_eq_true, decide_eq_true_eq]
        exact ⟨⟨h.1.1, h.1.2⟩, wfFrom_writeByte b h.2 (by omega)⟩

theorem wf_writeByte {m : Memory} (a : Nat) (b : Byte) (h : wf m = true) : wf (writeByte m a b) = true :=
  wfFrom_writeByte b h (Nat.zero_le a)

theorem below_listed {n a : Nat} {b : Byte} {m : Memory} (ha : a < n) (h : below n m = true) :
    below n (listed a b m) = true := by
  unfold listed
  split
  · exact h
  · simp only [below, List.all_cons, Bool.and_eq_true, decide_eq_true_eq]
    exact ⟨ha, h⟩

theorem below_writeByte {n : Nat} : ∀ {m : Memory} {a : Nat} (b : Byte), below n m = true → a < n →
    below n (writeByte m a b) = true
  | [], _, _, h, ha => below_listed ha h
  | (k, v) :: m, a, b, h, ha => by
    have hm : below n m = true := by
      simp only [below, List.all_cons, Bool.and_eq_true] at h ⊢
      exact h.2
    have hk : k < n := by
      simp only [below, List.all_cons, Bool.and_eq_true, decide_eq_true_eq] at h
      exact h.1
    unfold writeByte
    split
    · exact below_listed ha h
    · split
      · exact below_listed ha hm
      · have := below_writeByte b hm ha
        simp only [below, List.all_cons, Bool.and_eq_true, decide_eq_true_eq] at this ⊢
        exact ⟨hk, this⟩

theorem readByte_of_below {n : Nat} : ∀ {m : Memory} {a : Nat}, below n m = true → n ≤ a → readByte m a = unlisted
  | [], _, _, _ => rfl
  | (k, v) :: m, a, h, ha => by
    simp only [below, List.all_cons, Bool.and_eq_true, decide_eq_true_eq] at h
    have : a ≠ k := by omega
    simp only [readByte, this, if_false]
    exact readByte_of_below (n := n) h.2 ha

/-! ### Words -/

theorem wf_writeWord {m : Memory} (a : Nat) (v : Word) (h : wf m = true) : wf (writeWord m a v) = true :=
  wf_writeByte _ _ (wf_writeByte _ _ (wf_writeByte _ _ (wf_writeByte _ _ h)))

theorem below_writeWord {n : Nat} {m : Memory} {a : Nat} (v : Word) (h : below n m = true) (ha : a + 3 < n) :
    below n (writeWord m a v) = true :=
  below_writeByte _ (below_writeByte _ (below_writeByte _ (below_writeByte _ h (by omega)) (by omega)) (by omega))
    (by omega)

/-- Everything a word store does to the bytes of memory. -/
theorem readByte_writeWord {m : Memory} (h : wf m = true) (a : Nat) (v : Word) (a' : Nat) :
    readByte (writeWord m a v) a' =
      if a' = a + 3 then v.b4 else if a' = a + 2 then v.b3 else if a' = a + 1 then v.b2
      else if a' = a then v.b1 else readByte m a' := by
  have h1 := wf_writeByte a v.b1 h
  have h2 := wf_writeByte (a + 1) v.b2 h1
  have h3 := wf_writeByte (a + 2) v.b3 h2
  rw [writeWord, readByte_writeByte h3, readByte_writeByte h2, readByte_writeByte h1, readByte_writeByte h]

theorem readByte_writeWord_outside {m : Memory} (h : wf m = true) (a : Nat) (v : Word) (a' : Nat)
    (ho : a' < a ∨ a + 3 < a') : readByte (writeWord m a v) a' = readByte m a' := by
  rw [readByte_writeWord h]
  have h0 : a' ≠ a := by omega
  have h1 : a' ≠ a + 1 := by omega
  have h2 : a' ≠ a + 2 := by omega
  have h3 : a' ≠ a + 3 := by omega
  simp [h0, h1, h2, h3]

/-! ### The checks before an access -/

theorem accessError_eq_none_iff (memSize ea : Nat) :
    accessError memSize ea = none ↔ ea % 4 = 0 ∧ ea + 3 < memSize := by
  unfold accessError
  split
  · next h => simp [h]
  · next h =>
    split
    · next h' => simp; omega
    · next h' => simp; omega

end Sys2Proof.Machine.Memory
end

