-- ==== Sys2Proof/Laws/State.lean ====
section
/-! SUPPORT. One lemma per field per update of the state, so that no later proof unfolds a record update. -/

namespace Sys2Proof.Machine

/-! ### setX -/

@[simp] theorem setX_config (s : State) (r : GReg) (v : Word) : (s.setX r v).config = s.config := rfl
@[simp] theorem setX_prog (s : State) (r : GReg) (v : Word) : (s.setX r v).prog = s.prog := rfl
@[simp] theorem setX_regs (s : State) (r : GReg) (v : Word) : (s.setX r v).regs = s.regs.set r v := rfl
@[simp] theorem setX_pc (s : State) (r : GReg) (v : Word) : (s.setX r v).pc = s.pc := rfl
@[simp] theorem setX_mem (s : State) (r : GReg) (v : Word) : (s.setX r v).mem = s.mem := rfl
@[simp] theorem setX_mode (s : State) (r : GReg) (v : Word) : (s.setX r v).mode = s.mode := rfl
@[simp] theorem setX_run (s : State) (r : GReg) (v : Word) : (s.setX r v).run = s.run := rfl
@[simp] theorem setX_turns (s : State) (r : GReg) (v : Word) : (s.setX r v).turns = s.turns := rfl

/-! ### setMem -/

@[simp] theorem setMem_config (s : State) (m : Memory) : (s.setMem m).config = s.config := rfl
@[simp] theorem setMem_prog (s : State) (m : Memory) : (s.setMem m).prog = s.prog := rfl
@[simp] theorem setMem_regs (s : State) (m : Memory) : (s.setMem m).regs = s.regs := rfl
@[simp] theorem setMem_pc (s : State) (m : Memory) : (s.setMem m).pc = s.pc := rfl
@[simp] theorem setMem_mem (s : State) (m : Memory) : (s.setMem m).mem = m := rfl
@[simp] theorem setMem_mode (s : State) (m : Memory) : (s.setMem m).mode = s.mode := rfl
@[simp] theorem setMem_run (s : State) (m : Memory) : (s.setMem m).run = s.run := rfl
@[simp] theorem setMem_turns (s : State) (m : Memory) : (s.setMem m).turns = s.turns := rfl

/-! ### advance -/

@[simp] theorem advance_config (s : State) : s.advance.config = s.config := rfl
@[simp] theorem advance_prog (s : State) : s.advance.prog = s.prog := rfl
@[simp] theorem advance_regs (s : State) : s.advance.regs = s.regs := rfl
@[simp] theorem advance_pc (s : State) : s.advance.pc = s.pc + 4 := rfl
@[simp] theorem advance_mem (s : State) : s.advance.mem = s.mem := rfl
@[simp] theorem advance_mode (s : State) : s.advance.mode = s.mode := rfl
@[simp] theorem advance_run (s : State) : s.advance.run = s.run := rfl
@[simp] theorem advance_turns (s : State) : s.advance.turns = s.turns := rfl

/-! ### raise -/

@[simp] theorem raise_config (s : State) (c : ErrorCause) : (s.raise c).config = s.config := rfl
@[simp] theorem raise_prog (s : State) (c : ErrorCause) : (s.raise c).prog = s.prog := rfl
@[simp] theorem raise_regs (s : State) (c : ErrorCause) : (s.raise c).regs = s.regs := rfl
@[simp] theorem raise_pc (s : State) (c : ErrorCause) : (s.raise c).pc = s.pc := rfl
@[simp] theorem raise_mem (s : State) (c : ErrorCause) : (s.raise c).mem = s.mem := rfl
@[simp] theorem raise_mode (s : State) (c : ErrorCause) : (s.raise c).mode = s.mode := rfl
@[simp] theorem raise_run (s : State) (c : ErrorCause) : (s.raise c).run = .error c := rfl
@[simp] theorem raise_turns (s : State) (c : ErrorCause) : (s.raise c).turns = s.turns := rfl

/-! ### endRun -/

@[simp] theorem endRun_config (s : State) : s.endRun.config = s.config := rfl
@[simp] theorem endRun_prog (s : State) : s.endRun.prog = s.prog := rfl
@[simp] theorem endRun_regs (s : State) : s.endRun.regs = s.regs := rfl
@[simp] theorem endRun_pc (s : State) : s.endRun.pc = s.pc := rfl
@[simp] theorem endRun_mem (s : State) : s.endRun.mem = s.mem := rfl
@[simp] theorem endRun_mode (s : State) : s.endRun.mode = s.mode := rfl
@[simp] theorem endRun_run (s : State) : s.endRun.run = .waiting := rfl
@[simp] theorem endRun_turns (s : State) : s.endRun.turns = s.turns := rfl

/-! ### endTurn -/

@[simp] theorem endTurn_config (s : State) : s.endTurn.config = s.config := rfl
@[simp] theorem endTurn_prog (s : State) : s.endTurn.prog = s.prog := rfl
@[simp] theorem endTurn_regs (s : State) : s.endTurn.regs = s.regs := rfl
@[simp] theorem endTurn_pc (s : State) : s.endTurn.pc = s.pc := rfl
@[simp] theorem endTurn_mem (s : State) : s.endTurn.mem = s.mem := rfl
@[simp] theorem endTurn_mode (s : State) : s.endTurn.mode = s.mode := rfl
@[simp] theorem endTurn_run (s : State) : s.endTurn.run = s.run := rfl
@[simp] theorem endTurn_turns (s : State) : s.endTurn.turns = s.turns.tail := rfl

/-! ### pauseIfSingleStep -/

@[simp] theorem pauseIfSingleStep_config (s : State) : s.pauseIfSingleStep.config = s.config := by
  unfold State.pauseIfSingleStep; split <;> rfl
@[simp] theorem pauseIfSingleStep_prog (s : State) : s.pauseIfSingleStep.prog = s.prog := by
  unfold State.pauseIfSingleStep; split <;> rfl
@[simp] theorem pauseIfSingleStep_regs (s : State) : s.pauseIfSingleStep.regs = s.regs := by
  unfold State.pauseIfSingleStep; split <;> rfl
@[simp] theorem pauseIfSingleStep_pc (s : State) : s.pauseIfSingleStep.pc = s.pc := by
  unfold State.pauseIfSingleStep; split <;> rfl
@[simp] theorem pauseIfSingleStep_mem (s : State) : s.pauseIfSingleStep.mem = s.mem := by
  unfold State.pauseIfSingleStep; split <;> rfl
@[simp] theorem pauseIfSingleStep_mode (s : State) : s.pauseIfSingleStep.mode = s.mode := by
  unfold State.pauseIfSingleStep; split <;> rfl
@[simp] theorem pauseIfSingleStep_turns (s : State) : s.pauseIfSingleStep.turns = s.turns := by
  unfold State.pauseIfSingleStep; split <;> rfl

/-! ### hostMove -/

@[simp] theorem hostMove_config (s : State) (m : HostMove) : (s.hostMove m).config = s.config := by
  cases m
  · unfold State.hostMove; dsimp only; split <;> rfl
  · rfl
@[simp] theorem hostMove_prog (s : State) (m : HostMove) : (s.hostMove m).prog = s.prog := by
  cases m
  · unfold State.hostMove; dsimp only; split <;> rfl
  · rfl
@[simp] theorem hostMove_regs (s : State) (m : HostMove) : (s.hostMove m).regs = s.regs := by
  cases m
  · unfold State.hostMove; dsimp only; split <;> rfl
  · rfl
@[simp] theorem hostMove_pc (s : State) (m : HostMove) : (s.hostMove m).pc = s.pc := by
  cases m
  · unfold State.hostMove; dsimp only; split <;> rfl
  · rfl
@[simp] theorem hostMove_mem (s : State) (m : HostMove) : (s.hostMove m).mem = s.mem := by
  cases m
  · unfold State.hostMove; dsimp only; split <;> rfl
  · rfl
@[simp] theorem hostMove_mode (s : State) (m : HostMove) : (s.hostMove m).mode = s.mode := by
  cases m
  · unfold State.hostMove; dsimp only; split <;> rfl
  · rfl
@[simp] theorem hostMove_turns (s : State) (m : HostMove) : (s.hostMove m).turns = s.turns := by
  cases m
  · unfold State.hostMove; dsimp only; split <;> rfl
  · rfl

/-! ### withNextWord -/

@[simp] theorem withNextWord_config (s : State) (w : Word) : (s.withNextWord w).config = s.config := rfl
@[simp] theorem withNextWord_prog (s : State) (w : Word) : (s.withNextWord w).prog = placeWord w (s.pc / 4) s.prog := rfl
@[simp] theorem withNextWord_regs (s : State) (w : Word) : (s.withNextWord w).regs = s.regs := rfl
@[simp] theorem withNextWord_pc (s : State) (w : Word) : (s.withNextWord w).pc = s.pc := rfl
@[simp] theorem withNextWord_mem (s : State) (w : Word) : (s.withNextWord w).mem = s.mem := rfl
@[simp] theorem withNextWord_mode (s : State) (w : Word) : (s.withNextWord w).mode = s.mode := rfl
@[simp] theorem withNextWord_run (s : State) (w : Word) : (s.withNextWord w).run = .running := rfl
@[simp] theorem withNextWord_turns (s : State) (w : Word) : (s.withNextWord w).turns = [] := rfl

/-! ### powerUp -/

@[simp] theorem powerUp_config (l : Launch) : (State.powerUp l).config = l.config := rfl
@[simp] theorem powerUp_prog (l : Launch) : (State.powerUp l).prog = l.prog := rfl
@[simp] theorem powerUp_regs (l : Launch) : (State.powerUp l).regs = Vector.replicate 32 0 := rfl
@[simp] theorem powerUp_pc (l : Launch) : (State.powerUp l).pc = 0 := rfl
@[simp] theorem powerUp_mem (l : Launch) : (State.powerUp l).mem = l.memInit := rfl
@[simp] theorem powerUp_mode (l : Launch) : (State.powerUp l).mode = l.mode := rfl
@[simp] theorem powerUp_run (l : Launch) : (State.powerUp l).run = .running := rfl
@[simp] theorem powerUp_turns (l : Launch) : (State.powerUp l).turns = l.turns := rfl

/-! ### Registers -/

@[simp] theorem x_setX_self (s : State) (r : GReg) (v : Word) : (s.setX r v).x r = v := by
  simp [State.x]

theorem x_setX_other (s : State) {r r' : GReg} (v : Word) (h : r' ≠ r) : (s.setX r v).x r' = s.x r' := by
  have : (r : Nat) ≠ r' := fun e => h (Fin.ext e.symm)
  simp [State.x, this]

theorem x_setX (s : State) (r r' : GReg) (v : Word) : (s.setX r v).x r' = if r' = r then v else s.x r' := by
  split
  · next h => simp [h]
  · next h => exact x_setX_other s v h

theorem x_eq_of_regs_eq {s t : State} (h : s.regs = t.regs) (r : GReg) : s.x r = t.x r := by
  simp [State.x, h]

@[simp] theorem x_setMem (s : State) (m : Memory) (r : GReg) : (s.setMem m).x r = s.x r := rfl
@[simp] theorem x_advance (s : State) (r : GReg) : s.advance.x r = s.x r := rfl
@[simp] theorem x_raise (s : State) (c : ErrorCause) (r : GReg) : (s.raise c).x r = s.x r := rfl
@[simp] theorem x_endTurn (s : State) (r : GReg) : s.endTurn.x r = s.x r := rfl
@[simp] theorem x_endRun (s : State) (r : GReg) : s.endRun.x r = s.x r := rfl
@[simp] theorem x_pauseIfSingleStep (s : State) (r : GReg) : s.pauseIfSingleStep.x r = s.x r :=
  x_eq_of_regs_eq (pauseIfSingleStep_regs s) r
@[simp] theorem x_hostMove (s : State) (m : HostMove) (r : GReg) : (s.hostMove m).x r = s.x r :=
  x_eq_of_regs_eq (hostMove_regs s m) r
@[simp] theorem x_powerUp (l : Launch) (r : GReg) : (State.powerUp l).x r = 0 := by
  simp [State.x]

@[simp] theorem ea_endTurn (s : State) (b i : GReg) : s.endTurn.ea b i = s.ea b i := rfl
@[simp] theorem atEnd_endTurn (s : State) : s.endTurn.atEnd = s.atEnd := rfl
@[simp] theorem fetch_endTurn (s : State) : s.endTurn.fetch = s.fetch := rfl

/-! ### The run state after a pause and after a host move -/

theorem pauseIfSingleStep_run (s : State) :
    s.pauseIfSingleStep.run = if s.run = .running ∧ s.mode = .singleStep then .paused else s.run := by
  unfold State.pauseIfSingleStep
  split
  · next h1 h2 => simp [h1, h2]
  · next h => rw [if_neg]; exact fun ⟨h1, h2⟩ => h h1 h2

theorem hostMove_signal_run (s : State) :
    (s.hostMove .signal).run = if s.run = .paused then .running else s.run := by
  unfold State.hostMove
  dsimp only
  split
  · next h => simp [h]
  · next h => rw [if_neg]; exact h

@[simp] theorem hostMove_switchOff_run (s : State) : (s.hostMove .switchOff).run = .off := rfl

/-! ### Fetch at and before the end of the program -/

theorem atEnd_iff (s : State) : s.atEnd = true ↔ s.pc = 4 * s.prog.length := by
  simp [State.atEnd]

theorem fetch_isSome_iff (s : State) : s.fetch.isSome = true ↔ s.pc < 4 * s.prog.length := by
  cases h : s.fetch with
  | none => simp only [State.fetch, List.getElem?_eq_none_iff] at h; simp; omega
  | some w => have := (List.getElem?_eq_some_iff.1 h).1; simp; omega

theorem placeWord_get (w : Word) : ∀ (k : Nat) (p : List Word), (placeWord w k p)[k]? = some w
  | 0, [] => rfl
  | 0, _ :: _ => rfl
  | k + 1, [] => by simpa [placeWord] using placeWord_get w k []
  | k + 1, _ :: p => by simpa [placeWord] using placeWord_get w k p

theorem withNextWord_fetch (s : State) (w : Word) : (s.withNextWord w).fetch = some w := by
  simpa [State.fetch] using placeWord_get w (s.pc / 4) s.prog

end Sys2Proof.Machine
end

