-- ==== Sys2Proof/Laws/Exec.lean ====
section
/-! SUPPORT. What each shared operation, each meaning and a step can do, said once: later proofs cite these lemmas and
unfold no meaning. -/

namespace Sys2Proof.Machine

/-! ### Shared operations -/

theorem add32_eq (a b : Word) : add32 a b = a + b := by
  apply BitVec.eq_of_toNat_eq
  simp [add32, BitVec.toNat_add]

@[simp] theorem withChecked_error {α : Type} (c : ErrorCause) (s : State) (k : α → Result) :
    withChecked (.error c) s k = .next (s.raise c) := rfl

@[simp] theorem withChecked_ok {α : Type} (a : α) (s : State) (k : α → Result) : withChecked (.ok a) s k = k a := rfl

theorem memRead_ok {memSize : Nat} {m : Memory} {ea : Nat} (h : accessError memSize ea = none) :
    memRead memSize m ea = .ok (m.readWord ea) := by simp [memRead, h]

theorem memRead_error {memSize : Nat} {m : Memory} {ea : Nat} {c : ErrorCause}
    (h : accessError memSize ea = some c) : memRead memSize m ea = .error c := by simp [memRead, h]

theorem memWrite_ok {memSize : Nat} {m : Memory} {ea : Nat} {v : Word} (h : accessError memSize ea = none) :
    memWrite memSize m ea v = .ok (m.writeWord ea v) := by simp [memWrite, h]

theorem memWrite_error {memSize : Nat} {m : Memory} {ea : Nat} {v : Word} {c : ErrorCause}
    (h : accessError memSize ea = some c) : memWrite memSize m ea v = .error c := by simp [memWrite, h]

/-! ### What an instruction can do -/

/-- The whole effect of `i` on `s` as one of: an error taken; the advance alone (NOP); a register written and the
advance; four bytes of memory written and the advance. -/
inductive Effect (i : Instr) (s : State) : State → Prop where
  | raised (c : ErrorCause) (hc : genuine s.config c = true) : Effect i s (s.raise c)
  | advanced (h : i = .nop) : Effect i s s.advance
  | wrote (r : GReg) (v : Word) (h : i.destination = some r.name) : Effect i s (s.setX r v).advance
  | stored (r b x : GReg) (h : i = .storem r.name b.name x.name)
      (ha : accessError s.config.memSize (s.ea b x) = none) :
      Effect i s (s.setMem (s.mem.writeWord (s.ea b x) (s.x r))).advance

theorem reg_error_genuine {c : Config} {p : Position} {b : RegByte} {e : ErrorCause} (h : reg p b = .error e) :
    genuine c e = true := by
  obtain ⟨-, e'⟩ | ⟨-, hb, e'⟩ | ⟨-, r', e', -⟩ := reg_cases p b
  · rw [e'] at h; cases h; rfl
  · rw [e'] at h; cases h; simp [genuine, hb]
  · rw [e'] at h; cases h

theorem regs2_error_genuine {c : Config} {b2 b3 : RegByte} {e : ErrorCause} (h : regs2 b2 b3 = .error e) :
    genuine c e = true := by
  unfold regs2 at h
  split at h
  · next h1 => cases h; exact reg_error_genuine h1
  · split at h
    · next h2 => cases h; exact reg_error_genuine h2
    · cases h

theorem regs3_error_genuine {c : Config} {b2 b3 b4 : RegByte} {e : ErrorCause} (h : regs3 b2 b3 b4 = .error e) :
    genuine c e = true := by
  unfold regs3 at h
  split at h
  · next h1 => cases h; exact regs2_error_genuine h1
  · split at h
    · next h2 => cases h; exact reg_error_genuine h2
    · cases h

theorem accessError_genuine {c : Config} {ea : Nat} {e : ErrorCause} (h : accessError c.memSize ea = some e) :
    genuine c e = true := by
  unfold accessError at h
  split at h
  · next h1 => cases h; simpa [genuine] using h1
  · next h1 =>
    split at h
    · next h2 => cases h; simp [genuine]; omega
    · cases h

/-- Every instruction answers a next state, and that state is one of the effects. -/
theorem exec_effect (i : Instr) (s : State) : ∃ t, exec i s = .next t ∧ Effect i s t := by
  cases i with
  | nop => exact ⟨_, rfl, .advanced rfl⟩
  | add d a b =>
    cases h : regs3 d a b with
    | error c => exact ⟨_, by simp [exec, execAdd, h], .raised c (regs3_error_genuine h)⟩
    | ok r =>
      obtain ⟨rd, ra, rb⟩ := r
      exact ⟨_, by simp only [exec, execAdd, h, withChecked_ok]; rfl, .wrote rd _ (by rw [(regs3_ok h).1]; rfl)⟩
  | addi d a n8 =>
    cases h : regs2 d a with
    | error c => exact ⟨_, by simp [exec, execAddi, h], .raised c (regs2_error_genuine h)⟩
    | ok r =>
      obtain ⟨rd, ra⟩ := r
      exact ⟨_, by simp only [exec, execAddi, h, withChecked_ok]; rfl, .wrote rd _ (by rw [(regs2_ok h).1]; rfl)⟩
  | loadm r b x =>
    cases h : regs3 r b x with
    | error c => exact ⟨_, by simp [exec, execLoadm, h], .raised c (regs3_error_genuine h)⟩
    | ok q =>
      obtain ⟨rr, rb, rx⟩ := q
      cases ha : accessError s.config.memSize (s.ea rb rx) with
      | some c =>
        exact ⟨_, by simp [exec, execLoadm, h, memRead_error ha], .raised c (accessError_genuine ha)⟩
      | none =>
        exact ⟨_, by simp only [exec, execLoadm, h, memRead_ok ha, withChecked_ok]; rfl,
          .wrote rr _ (by rw [(regs3_ok h).1]; rfl)⟩
  | storem r b x =>
    cases h : regs3 r b x with
    | error c => exact ⟨_, by simp [exec, execStorem, h], .raised c (regs3_error_genuine h)⟩
    | ok q =>
      obtain ⟨rr, rb, rx⟩ := q
      cases ha : accessError s.config.memSize (s.ea rb rx) with
      | some c =>
        exact ⟨_, by simp [exec, execStorem, h, memWrite_error ha], .raised c (accessError_genuine ha)⟩
      | none =>
        obtain ⟨e1, e2, e3⟩ := regs3_ok h
        exact ⟨_, by simp only [exec, execStorem, h, memWrite_ok ha, withChecked_ok],
          .stored rr rb rx (by rw [e1, e2, e3]) ha⟩

/-! ### What a step can do -/

/-- The machine's own step answers a next state in three ways only. -/
theorem machineStep_next {s t : State} (h : machineStep s = .next t) :
    s.run = .running ∧
    ((s.pc = 4 * s.prog.length ∧ t = s.endRun) ∨
     (∃ w c, s.fetch = some w ∧ decode s.config w = .error c ∧ t = s.raise c) ∨
     (∃ w i t', s.fetch = some w ∧ decode s.config w = .ok i ∧ exec i s = .next t' ∧ t = t'.pauseIfSingleStep)) := by
  unfold machineStep at h
  split at h
  · next hr =>
    refine ⟨hr, ?_⟩
    split at h
    · next he => cases h; exact .inl ⟨(atEnd_iff s).1 he, rfl⟩
    · split at h
      · next w hf =>
        unfold runWord at h
        split at h
        · next c hd => cases h; exact .inr (.inl ⟨w, c, hf, hd, rfl⟩)
        · next i hd =>
          obtain ⟨t', ht', -⟩ := exec_effect i s
          rw [ht'] at h
          cases h
          exact .inr (.inr ⟨w, i, t', hf, hd, ht', rfl⟩)
      · cases h
  all_goals cases h

/-- A step answers a next state by a move of the host or by the machine's own step. -/
theorem step_next {s t : State} (h : step s = .next t) :
    (∃ m, s.hostTurn = some m ∧ t = s.endTurn.hostMove m) ∨
    (s.hostTurn = none ∧ machineStep s.endTurn = .next t) := by
  unfold step at h
  split at h
  · next m hm => cases h; exact .inl ⟨m, hm, rfl⟩
  · next hm => exact .inr ⟨hm, h⟩

end Sys2Proof.Machine
end

