-- ==== Sys2Proof/Laws/PerInstr.lean ====
section
/-! SUPPORT. A fact about every instruction as syntax, one lemma per constructor: the first byte of its word is its
opcode (R81, R93). -/

namespace Sys2Proof.Laws.OpcodeByte

/-- The Befehl of an instruction's word is the opcode of the instruction. -/
def Statement (i : Instr) : Prop := ∀ c : Config, (encode c i).b1 = i.opcode c

theorem nop : Statement .nop := fun _ => b1_ofBytes _ _ _ _

theorem add (d s t : RegByte) : Statement (.add d s t) := fun _ => b1_ofBytes _ _ _ _

theorem addi (d s : RegByte) (n8 : Byte) : Statement (.addi d s n8) := fun _ => b1_ofBytes _ _ _ _

theorem loadm (r b i : RegByte) : Statement (.loadm r b i) := fun _ => b1_ofBytes _ _ _ _

theorem storem (r b i : RegByte) : Statement (.storem r b i) := fun _ => b1_ofBytes _ _ _ _

end Sys2Proof.Laws.OpcodeByte
end

