-- ==== Sys2Proof/Tests/Slice0.lean ====
section
/-! SUPPORT. Small tests, expected results from spec/95_test_vectors.md or worked out by hand from the rule named, and one
witness for the hypotheses of each statement. -/

namespace Sys2Proof.Tests

open Sys2Proof Sys2Proof.Machine

/-! ### Helpers -/

/-- The vectors' machine: `MEM_SIZE` = 64, opcodes `LL` = 0x20 and `SS` = 0x3F. -/
def cfg : Config := { opcLoadm := 0x20#8, opcStorem := 0x3F#8, immExt := .zero, memSize := 64 }

/-- Power-up in the given mode with a program and a memory content. -/
def start (mode : Mode) (prog : List Word) (mem : Memory) : State :=
  State.powerUp { config := cfg, prog := prog, memInit := mem, mode := mode, turns := [] }

/-- A machine about to run one word, with the contents of R1, R2 and R3. -/
def one (w : Word) (x1 x2 x3 : Word) : State :=
  (((start .normal [w] [(0x10, 0xDE), (0x11, 0xAD), (0x12, 0xBE), (0x13, 0xEF)]).setX 0 x1).setX 1 x2).setX 2 x3

/-- The next state, if there is one. -/
def nextOf : Result → Option State
  | .next s => some s
  | _ => none

/-- The fault, if there is one. -/
def faultOf : Result → Option Fault
  | .fault f => some f
  | _ => none

/-- A register of the next state. -/
def regOf (r : Result) (i : GReg) : Option Word := (nextOf r).map fun s => s.x i

/-- Run state and `pc` of the next state. -/
def runPc (r : Result) : Option (RunState × Nat) := (nextOf r).map fun s => (s.run, s.pc)

/-- Four bytes of the next state's memory. -/
def bytesOf (r : Result) (a : Nat) : Option (List Byte) :=
  (nextOf r).map fun s => [s.mem.readByte a, s.mem.readByte (a + 1), s.mem.readByte (a + 2), s.mem.readByte (a + 3)]

/-! ### Well-formedness: one ill-formed term for each check -/

theorem test_wf_refuses_add_destination_zero : (Instr.add 0 1 2).wf = false := by decide
theorem test_wf_refuses_add_first_source_33 : (Instr.add 1 33 2).wf = false := by decide
theorem test_wf_refuses_add_second_source_zero : (Instr.add 1 2 0).wf = false := by decide
theorem test_wf_refuses_addi_destination_255 : (Instr.addi 255 2 0).wf = false := by decide
theorem test_wf_refuses_addi_source_zero : (Instr.addi 1 0 0).wf = false := by decide
theorem test_wf_accepts_any_number : (Instr.addi 1 32 0).wf = true ∧ (Instr.addi 1 32 255).wf = true := by decide
theorem test_wf_refuses_loadm_operands :
    (Instr.loadm 0 1 1).wf = false ∧ (Instr.loadm 1 33 1).wf = false ∧ (Instr.loadm 1 1 0).wf = false := by decide
theorem test_wf_refuses_storem_operands :
    (Instr.storem 33 1 1).wf = false ∧ (Instr.storem 1 0 1).wf = false ∧ (Instr.storem 1 1 33).wf = false := by decide
theorem test_config_refuses_opcodes_outside_R3 :
    { cfg with opcLoadm := 0x1F }.wf = false ∧ { cfg with opcStorem := 0x40 }.wf = false ∧
      { cfg with opcStorem := 0x20 }.wf = false ∧ { cfg with memSize := 2 ^ 33 }.wf = false := by decide

/-! ### Decoding, words from S1, V-N2, V-I2, V-LS1, V-LS2, V-E -/

theorem test_decode_add_S1 : decode cfg 0b01000000000000010000001000000011 = .ok (.add 1 2 3) := by rfl
theorem test_decode_nop_V_N2 : decode cfg 0b00000000111111111111111111111111 = .ok .nop := by rfl
theorem test_decode_addi_V_I2 : decode cfg 0b01000001000000110000001000000000 = .ok (.addi 3 2 0) := by rfl
theorem test_decode_loadm_V_LS1 : decode cfg 0b00100000000000010000001000000011 = .ok (.loadm 1 2 3) := by rfl
theorem test_decode_storem_V_LS2 : decode cfg 0b00111111000000010000001000000011 = .ok (.storem 1 2 3) := by rfl
theorem test_decode_first_failing_byte_wins_V_E7 : decode cfg 0x40002100 = .error (.zeroRegister .first) := by rfl
theorem test_decode_opcode_before_registers_V_E14 : decode cfg 0xFF000000 = .error (.illegalOpcode 0xFF) := by rfl
theorem test_decode_bytes_big_endian_S5 : decodeBytes cfg [0x40, 0x01, 0x02, 0x03, 0xAA] = .ok (.add 1 2 3, [0xAA]) := by
  rfl
theorem test_decode_bytes_too_short : decodeBytes cfg [0x40, 0x01, 0x02] = .error (.tooShort 3) := by rfl
theorem test_decode_table_word : decodeTableWord 32 0x41010205 = some (.addi 1 2 5) := by rfl
theorem test_format_RNN_S3 : Format.fRNN.read 0x12010203 = .regNumber 0x01 0x0203 := by decide
theorem test_format_RRN_S4 : Format.fRRN.read 0x12010203 = .regRegNumber 0x01 0x02 0x03 := by decide
theorem test_category_boundaries_S7 :
    [0x1F, 0x20, 0x3F, 0x40, 0x5F, 0x60, 0xDF, 0xE0].map categoryOf =
      [.control, .loadStore, .loadStore, .arithmetic, .arithmetic, .logical, .subroutine, .system] := by decide

/-! ### Instructions -/

theorem test_nop_V_N1 : runPc (step (one 0 0 0 0)) = some (.running, 4) := by decide
theorem test_add_V_A2_wraps : regOf (step (one 0x40010203 0 0xFFFFFFFF 1)) 0 = some 0 := by decide
theorem test_add_V_A6_same_register_three_times :
    regOf (step (one 0x40010101 0x40000001 0 0)) 0 = some 0x80000002 := by decide
theorem test_addi_V_I5_zero : regOf (step (one 0x41010280 0 0x100 0)) 0 = some 0x180 := by decide
theorem test_addi_V_I5_sign :
    regOf (step { one 0x41010280 0 0x100 0 with config := { cfg with immExt := .sign } }) 0 = some 0x80 := by decide
theorem test_loadm_V_LS1 : regOf (step (one 0x20010203 0 0x10 0)) 0 = some 0xDEADBEEF := by decide
theorem test_loadm_V_LS4_does_not_wrap :
    runPc (step (one 0x20010203 0 0xFFFFFFFF 1)) = some (.error (.memoryRange 0x100000000), 0) := by decide
theorem test_storem_V_LS7_last_word :
    bytesOf (step (one 0x3F010203 0xAABBCCDD 0x3C 0)) 60 = some [0xAA, 0xBB, 0xCC, 0xDD] := by decide
theorem test_storem_V_LS9_alignment_first :
    runPc (step (one 0x3F010203 0 0x41 0)) = some (.error (.misalignedAccess 0x41), 0) := by decide
theorem test_exec_checks_registers_too : runPc (exec (.add 1 0 33) (one 0 0 0 0)) = some (.error (.zeroRegister .second), 0) := by
  decide
theorem test_store_of_zero_removes_the_cell :
    (nextOf (step (one 0x3F010203 0 0x10 0))).map State.mem = some [] := by decide

/-! ### The cycle, modes and the host (V-M) -/

theorem test_empty_program_V_M1 : runPc (step (start .normal [] [])) = some (.waiting, 0) := by decide
theorem test_single_step_V_M3 :
    let s := { start .singleStep [0] [] with turns := signalled 2 }
    runPc (steps 1 s) = some (.paused, 4) ∧ runPc (steps 2 s) = some (.running, 4) ∧
      runPc (steps 3 s) = some (.waiting, 4) := by decide
theorem test_error_in_single_step_V_M5 :
    runPc (step (start .singleStep [0x12000000] [])) = some (.error (.illegalOpcode 0x12), 0) := by decide
theorem test_pause_without_signal_V_M6 : faultOf (steps 2 (start .singleStep [0] [])) = some .awaitingSignal := by decide
theorem test_reset_runs_a_placed_word :
    runPc (step (State.reset.withFetchWord 32 0x40010203)) = some (.running, 4) := by decide
theorem test_reset_runs_a_placed_load : regOf (step (State.reset.withFetchWord 32 0x20010203)) 0 = some 0 := by decide

/-! ### The assembler level (S1, S11) -/

theorem test_assemble_S1 : assemble ⟨"ADD", [.register 1, .register 2, .register 3]⟩ = .ok (.add 1 2 3) := by
  simp [assemble, asmRRR, asmRegisters]
theorem test_text_S1 : (disassemble (.add 1 2 3)).text = "ADD R1 R2 R3" := by decide
theorem test_assemble_refuses_S11 : assemble ⟨"REV", [.register 3, .register 1]⟩ = .error (.notAdmitted "REV") := by
  simp [assemble]

/-! ### Witnesses: for each statement with hypotheses, concrete values that meet them, clause by clause -/

theorem witness_SpecWordsDecodeAsListed : cfg.wf = true ∧ Config.standard.wf = true := by decide

theorem witness_DecodeOfEncodeIsTheInstruction :
    cfg.wf = true ∧ (Instr.storem 32 1 32).wf = true ∧ (Instr.addi 1 32 255).wf = true := by decide

theorem witness_AcceptedWordsReencodeToThemselves :
    cfg.wf = true ∧ decode cfg 0x3F200120 = .ok (.storem 32 1 32) ∧ decode cfg 0x00FFFFFF = .ok .nop :=
  ⟨by decide, rfl, rfl⟩

/-- One opcode for each clause, the last at the end of the load and store range. -/
theorem witness_DecoderIsTheCaseTableOfTheSpec :
    cfg.wf = true ∧ cfg.opcLoadm = 0x20#8 ∧ cfg.opcStorem = 0x3F#8 ∧
      (0x21#8 : Byte) ≠ 0x00#8 ∧ (0x21#8 : Byte) ≠ 0x40#8 ∧ (0x21#8 : Byte) ≠ 0x41#8 ∧ (0x21#8 : Byte) ≠ cfg.opcLoadm ∧
      (0x21#8 : Byte) ≠ cfg.opcStorem := by decide

theorem witness_UnassignedOpcodesAre251AndStopTheMachine :
    cfg.wf = true ∧ (one 0x42010203 0 0 0).config = cfg ∧ (one 0x42010203 0 0 0).atMachineStep ∧
      (one 0x42010203 0 0 0).fetch = some (wordOf 0x42 1 2 3) ∧ (0x42#8 : Byte) ≠ 0x00#8 ∧ (0x42#8 : Byte) ≠ 0x40#8 ∧
      (0x42#8 : Byte) ≠ 0x41#8 ∧ (0x42#8 : Byte) ≠ cfg.opcLoadm ∧ (0x42#8 : Byte) ≠ cfg.opcStorem :=
  ⟨by decide, rfl, ⟨rfl, rfl⟩, by decide, by decide, by decide, by decide, by decide, by decide⟩

theorem witness_OpcodeAloneFixesTheFormat : decode cfg 0x41200100 = .ok (.addi 32 1 0) := rfl

theorem witness_CategoryIsTheRangeOfTheOpcode : cfg.wf = true ∧ decode cfg 0x3F010203 = .ok (.storem 1 2 3) :=
  ⟨by decide, rfl⟩

theorem witness_AssemblerRefusesLoadRevAndRegisterZero :
    AsmOperand.register 0 ∈ [AsmOperand.register 1, .register 0, .number 5] := by decide

theorem witness_InvariantHoldsAtReset :
    Launch.ok { config := cfg, prog := [0], memInit := [(63, 1)], mode := .singleStep, turns := [] } = true := by decide

/-- Two ways to the same content: listed outright, and by a write in between two cells. -/
theorem witness_EveryMemoryContentIsOneCanonicalMemory :
    Memory.wf [(0, 1), (7, 255), (9, 2)] = true ∧ Memory.wf (Memory.writeByte [(0, 1), (9, 2)] 7 255) = true ∧
      ∀ a, Memory.readByte [(0, 1), (7, 255), (9, 2)] a = (Memory.writeByte [(0, 1), (9, 2)] 7 255).readByte a :=
  ⟨by decide, by decide, fun _ => rfl⟩

theorem witness_ProgramImageIsReadFourBytesAtATime :
    ([1, 2, 3, 4, 5] : List Byte).length % 4 ≠ 0 ∧ ([1, 2, 3, 4] : List Byte).length % 4 = 0 := by decide

theorem witness_NopOnlyAdvancesWhateverItsFillBytes :
    (one 0x00210000 0 0 0).atMachineStep ∧ (one 0x00210000 0 0 0).fetch = some (wordOf 0x00 0x21 0 0) :=
  ⟨⟨rfl, rfl⟩, by decide⟩

theorem witness_NopOnlyAdvancesWhateverItsFillBytes_program :
    let l : Launch := { config := cfg, prog := [0, 0x00FFFFFF], memInit := [], mode := .normal, turns := [] }
    l.mode = .normal ∧ l.turns = [] ∧ ∀ w ∈ l.prog, ∃ b2 b3 b4, w = wordOf 0x00 b2 b3 b4 := by
  refine ⟨rfl, rfl, ?_⟩
  intro w h
  simp only [List.mem_cons, List.not_mem_nil, or_false] at h
  rcases h with rfl | rfl
  · exact ⟨0, 0, 0, by decide⟩
  · exact ⟨0xFF, 0xFF, 0xFF, by decide⟩

theorem witness_AddWritesTheSumModulo2Pow32 :
    (GReg.name 0 = 1 ∧ GReg.name 31 = 32) ∧
    firstBadRegister [(.first, 32), (.second, 1), (.third, 0)] = some (.zeroRegister .third) ∧
      firstBadRegister [(.first, 33), (.second, 0), (.third, 1)] = some (.invalidRegister .first 33) := by decide

theorem witness_AddiWritesTheSumWithTheWidenedNumber :
    (GReg.name 0 = 1 ∧ GReg.name 31 = 32) ∧ (0x7F : Byte).toNat < 0x80 ∧ ¬ (0x80 : Byte).toNat < 0x80 ∧
    firstBadRegister [(.first, 1), (.second, 33)] = some (.invalidRegister .second 33) := by decide

/-- The last word of memory; the first word beyond it; a sum of 1; a bad register byte. -/
theorem witness_LoadmReadsTheWordAtTheFullSum :
    cfg.wf = true ∧
    (let s := one 0 0 0x3C 0; 60 = (s.x 1).toNat + (s.x 2).toNat ∧ 60 % 4 = 0 ∧ 60 + 3 < s.config.memSize) ∧
    (let s := one 0 0 0x3C 4; 64 = (s.x 1).toNat + (s.x 2).toNat ∧ 64 % 4 = 0 ∧ s.config.memSize ≤ 64 + 3) ∧
    (let s := one 0 0 0 1; 1 = (s.x 1).toNat + (s.x 2).toNat ∧ 1 % 4 ≠ 0) ∧
    firstBadRegister [(.first, 1), (.second, 0), (.third, 3)] = some (.zeroRegister .second) := by decide

theorem witness_StoremWritesTheFourBytesAtTheFullSum :
    cfg.wf = true ∧ (one 0 0 0x3C 0).mem.wf = true ∧
    (let s := one 0 0 0x3C 0; 60 = (s.x 1).toNat + (s.x 2).toNat ∧ 60 % 4 = 0 ∧ 60 + 3 < s.config.memSize) ∧
    (let s := one 0 0 0x3C 4; 64 = (s.x 1).toNat + (s.x 2).toNat ∧ 64 % 4 = 0 ∧ s.config.memSize ≤ 64 + 3) ∧
    (let s := one 0 0 0 1; 1 = (s.x 1).toNat + (s.x 2).toNat ∧ 1 % 4 ≠ 0) ∧
    firstBadRegister [(.first, 1), (.second, 2), (.third, 33)] = some (.invalidRegister .third 33) := by decide

theorem witness_MisalignedOrOutsideAccessOnlyRaises :
    ∃ i, (i = Instr.loadm (GReg.name 0) (GReg.name 1) (GReg.name 2) ∨
        i = Instr.storem (GReg.name 0) (GReg.name 1) (GReg.name 2)) ∧
      (let s := one 0 0 0x3C 1; 61 = (s.x 1).toNat + (s.x 2).toNat ∧ 61 % 4 ≠ 0) ∧
      (let s := one 0 0 0xFFFFFFFF 1; 0x100000000 = (s.x 1).toNat + (s.x 2).toNat ∧ 0x100000000 % 4 = 0 ∧
        s.config.memSize ≤ 0x100000000 + 3) := ⟨_, .inl rfl, by decide, by decide⟩

theorem witness_FirstBadRegisterByteGivesTheError :
    cfg.wf = true ∧ firstBadRegister (Instr.add 32 1 0).registerBytes = some (.zeroRegister .third) ∧
      firstBadRegister (Instr.addi 1 32 0).registerBytes = none := by decide

theorem witness_AdditionLaws : (5 : Nat) ≤ (5#32 : Word).toNat := by decide

theorem witness_ImmediateExtensionMattersFrom0x80On :
    ∃ s z g : State, z = { s with config := { s.config with immExt := .zero } } ∧
      g = { s with config := { s.config with immExt := .sign } } := ⟨one 0 0 0 0, _, _, rfl, rfl⟩

theorem witness_OpenOpcodesDoNotAffectExecution :
    let c : Config := { cfg with opcLoadm := 0x2A, opcStorem := 0x2B }
    c.memSize = (one 0 0 0x10 0).config.memSize ∧ c.immExt = (one 0 0 0x10 0).config.immExt ∧
      ∃ t, exec (.loadm 1 2 3) (one 0 0 0x10 0) = .next t := ⟨rfl, rfl, _, rfl⟩

theorem witness_StoreThenLoadReturnsTheStoredWord :
    let s := one 0 0 0x3C 0
    s.mem.wf = true ∧ ((s.x 1).toNat + (s.x 2).toNat) % 4 = 0 ∧ (s.x 1).toNat + (s.x 2).toNat + 3 < s.config.memSize := by
  decide

theorem witness_RegisterInstructionsFrame :
    (∃ t, exec .nop (one 0 0 0 0) = .next t) ∧ (∃ t, exec (.add 1 2 3) (one 0 0 0 0) = .next t) ∧
      ∃ t, exec (.addi 1 0 5) (one 0 0 0 0) = .next t ∧ t.run = .error (.zeroRegister .second) :=
  ⟨⟨_, rfl⟩, ⟨_, rfl⟩, _, rfl, rfl⟩

theorem witness_LoadmFrame :
    (∃ t, exec (.loadm 1 2 3) (one 0 0 0x10 0) = .next t ∧ t.run = .running) ∧
      ∃ t, exec (.loadm 1 2 3) (one 0 0 0x40 0) = .next t ∧ t.run = .error (.memoryRange 64) :=
  ⟨⟨_, rfl, by decide⟩, _, rfl, by decide⟩

theorem witness_StoremFrame :
    (one 0 0 0 0).mem.wf = true ∧ (∃ t, exec (.storem 1 2 3) (one 0 0 0x3C 0) = .next t) ∧
      (one 0 0 0x3C 0).storeAddress 1 2 3 = some 60 ∧ (one 0 0 0x40 0).storeAddress 1 2 3 = none :=
  ⟨by decide, ⟨_, rfl⟩, by decide, by decide⟩

theorem witness_StepRunsTheDecodedInstruction :
    let s := one 0x40010203 0 5 7
    s.run = .running ∧ s.hostTurn = none ∧ s.pc = 4 * 0 ∧ s.prog[0]? = some 0x40010203 ∧
      decode s.config 0x40010203 = .ok (.add 1 2 3) ∧ ∃ t, exec (.add 1 2 3) { s with turns := s.turns.tail } = .next t :=
  ⟨rfl, rfl, rfl, rfl, rfl, _, rfl⟩

/-- The host's two clauses, the end of the program, an error at decode, an error at execution, a completion. -/
theorem witness_InstructionCycleOfTheMachineAndMovesOfTheHost :
    State.hostTurn { one 0 0 0 0 with run := .paused, turns := [.host .signal] } = some .signal ∧
    State.hostTurn { one 0 0 0 0 with turns := [.host .switchOff] } = some .switchOff ∧
    (start .normal [] []).hostTurn = none ∧
    (start .normal [] []).pc = 4 * (start .normal [] []).prog.length ∧
    ((one 0x40000000 0 0 0).fetch = some 0x40000000 ∧ decode cfg 0x40000000 = .error (.zeroRegister .first)) ∧
    (∃ t, exec (.loadm 1 2 3) (one 0x20010203 0 1 0) = .next t ∧ t.run = .error (.misalignedAccess 1)) ∧
    ∃ t, exec (.loadm 1 2 3) (one 0x20010203 0 0x10 0) = .next t ∧ t.run = .running :=
  ⟨rfl, rfl, rfl, rfl, ⟨rfl, rfl⟩, ⟨_, rfl, by decide⟩, _, rfl, by decide⟩

/-- The four run states without a step, on the machine's turn. -/
theorem witness_InstructionCycleOfTheMachineAndMovesOfTheHost_stops :
    ∀ r : RunState, r ∈ [.paused, .waiting, .error (.memoryRange 64), .off] →
      ∃ s u : State, s.hostTurn = none ∧ u = { s with turns := s.turns.tail } ∧ s.run = r :=
  fun r _ => ⟨{ one 0 0 0 0 with run := r }, _, rfl, rfl, rfl⟩

theorem witness_ErrorEntryChangesOnlyTheRunState :
    ((one 0x12010203 0 0 0).run = .running ∧
      ∃ t, step (one 0x12010203 0 0 0) = .next t ∧ t.run = .error (.illegalOpcode 0x12)) ∧
    State.hostTurn { one 0 0 0 0 with run := .error (.memoryRange 64) } = none ∧
    ∃ t, step { one 0 0 0 0 with run := .error (.memoryRange 64), turns := [.host .switchOff] } = .next t :=
  ⟨⟨rfl, _, rfl, by decide⟩, rfl, _, rfl⟩

theorem witness_ErrorPriority :
    (one 0x20010203 0 0 0).config.wf = true ∧ (one 0x20010203 0 0 0).atMachineStep ∧
      (one 0x20010203 0 0 0).fetch = some (wordOf 0x20 1 2 3) ∧ (1#8 : Byte) = GReg.name 0 ∧ (2#8 : Byte) = GReg.name 1 ∧
      (3#8 : Byte) = GReg.name 2 ∧ (one 0x20010203 0 0 0).config.opcLoadm = 0x20#8 :=
  ⟨by decide, ⟨rfl, rfl⟩, by decide, by decide, by decide, by decide, rfl⟩

theorem witness_RunEndsInWaitingAndKeepsItsState :
    (start .normal [] []).atMachineStep ∧ (start .normal [] []).pc = 4 * (start .normal [] []).prog.length ∧
      State.terminal { one 0 0 0 0 with run := .waiting } = true ∧
      (∃ t, step { one 0 0 0 0 with run := .waiting, turns := [.host .signal] } = .next t) ∧
      ∃ t, step { one 0 0 0 0 with run := .waiting, turns := [.host .switchOff] } = .next t ∧ t.run = .off :=
  ⟨⟨rfl, rfl⟩, rfl, rfl, ⟨_, rfl⟩, _, rfl, rfl⟩

theorem witness_HostMovesChangeOnlyTheRunState :
    State.hostTurn { one 0 0 0 0 with run := .paused, turns := [.host .signal] } = some .signal ∧
      State.hostTurn { one 0 0 0 0 with turns := [.host .signal] } = some .signal ∧
      State.hostTurn { one 0 0 0 0 with turns := [.host .switchOff] } = some .switchOff := ⟨rfl, rfl, rfl⟩

theorem witness_ModeDecidesWhetherTheMachinePauses :
    (start .singleStep [0] []).atMachineStep ∧ (∃ t, step (start .singleStep [0] []) = .next t ∧ t.run = .paused) ∧
      (start .normal [0] []).atMachineStep ∧ ∃ t, step (start .normal [0] []) = .next t ∧ t.run = .running :=
  ⟨⟨rfl, rfl⟩, ⟨_, rfl, by decide⟩, ⟨rfl, rfl⟩, _, rfl, by decide⟩

theorem witness_SingleStepRunMatchesNormalRun :
    let s := start .normal [0x41010105, 0x41020207] []
    s.mode = .normal ∧ s.run = .running ∧ s.turns = [] ∧ ∃ t, steps 3 s = .next t := ⟨rfl, rfl, rfl, _, rfl⟩

theorem witness_StepStopsExactlyWhereTheSpecHasNoStep : (one 0x3F010203 0 0x3C 0).inv = true := by decide

theorem witness_StepKeepsTheInvariant :
    (one 0x3F010203 1 0x3C 0).inv = true ∧ ∃ t, step (one 0x3F010203 1 0x3C 0) = .next t := ⟨by decide, _, rfl⟩

theorem witness_ProgramModeAndParametersNeverChange : ∃ t, step (one 0x3F010203 1 0x3C 0) = .next t := ⟨_, rfl⟩

theorem witness_RegistersStartZeroAndChangeOnlyAsDestination :
    ∃ t, step (one 0x40010203 0 5 7) = .next t ∧ t.x 0 ≠ (one 0x40010203 0 5 7).x 0 := ⟨_, rfl, by decide⟩

theorem witness_OnlyLoadAndStoreReachMemory :
    (one 0x3F010203 1 0x3C 0).mem.wf = true ∧
      ∃ t, step (one 0x3F010203 1 0x3C 0) = .next t ∧ t.mem.readByte 63 ≠ (one 0x3F010203 1 0x3C 0).mem.readByte 63 :=
  ⟨by decide, _, rfl, by decide⟩

theorem witness_OnlyLoadAndStoreReachMemory_others :
    (∀ r b x, Instr.add 1 2 3 ≠ .loadm r b x) ∧ (∀ r b x, Instr.add 1 2 3 ≠ .storem r b x) ∧
      ∃ t, exec (.add 1 2 3) (one 0 0 5 7) = .next t :=
  ⟨fun _ _ _ => by simp, fun _ _ _ => by simp, _, rfl⟩

theorem witness_PcAdvancesExactlyWhenAnInstructionCompletes :
    ((one 0x40010203 0 5 7).inv = true ∧ ∃ t, step (one 0x40010203 0 5 7) = .next t ∧ t.run = .running) ∧
      ((start .normal [] []).inv = true ∧ ∃ t, step (start .normal [] []) = .next t ∧ t.run = .waiting) ∧
      State.hostTurn { one 0 0 0 0 with turns := [.host .signal] } ≠ none :=
  ⟨⟨by decide, _, rfl, by decide⟩, ⟨by decide, _, rfl, by decide⟩, by decide⟩

theorem witness_EveryNormalRunEndsWithinItsLength :
    let s := start .normal [0x41010105, 0x41020207] []
    s.inv = true ∧ s.run = .running ∧ s.mode = .normal ∧ s.turns = [] := ⟨by decide, rfl, rfl, rfl⟩

end Sys2Proof.Tests
end

/-! How a step runs and what it can do, and the statements about the state: O30, O31, O38, O40, O41, O43. -/

namespace Sys2Proof.Machine

/-! ### The pause of single-step mode, and the error states -/

theorem pauseIfSingleStep_eq (s : State) :
    s.pauseIfSingleStep = if s.run = .running ∧ s.mode = .singleStep then { s with run := .paused } else s := by
  unfold State.pauseIfSingleStep
  split
  · next hr hm => rw [if_pos ⟨hr, hm⟩]
  · next h => rw [if_neg fun ⟨hr, hm⟩ => h hr hm]

/-- After an instruction that completed, the mode alone decides the run state (R203, R204). -/
theorem pauseIfSingleStep_of_running {s : State} (h : s.run = .running) :
    s.pauseIfSingleStep = { s with run := if s.mode = .singleStep then .paused else .running } := by
  rw [pauseIfSingleStep_eq]
  by_cases hm : s.mode = .singleStep
  · rw [if_pos ⟨h, hm⟩, if_pos hm]
  · rw [if_neg fun hc => hm hc.2, if_neg hm, ← h]

@[simp] theorem pauseIfSingleStep_raise (s : State) (c : ErrorCause) :
    (s.raise c).pauseIfSingleStep = s.raise c := rfl

theorem noError_iff (s : State) : s.noError = true ↔ ∀ e, s.run ≠ .error e := by
  unfold State.noError
  split
  · next c h => simp [h]
  · next h => simpa using h

/-! ### The invariant and the fetch -/

theorem inv_iff (s : State) : s.inv = true ↔
    s.config.wf = true ∧ s.pc % 4 = 0 ∧ s.pc ≤ 4 * s.prog.length ∧ s.mem.wf = true ∧
      s.mem.below s.config.memSize = true ∧ s.runOk = true := by
  simp [State.inv, and_assoc]

theorem fetch_of_pc_eq {s : State} {k : Nat} (h : s.pc = 4 * k) : s.fetch = s.prog[k]? := by
  rw [State.fetch, h, Nat.mul_div_cancel_left k (by decide)]

theorem pc_lt_of_fetch {s : State} {w : Word} (h : s.fetch = some w) : s.pc < 4 * s.prog.length :=
  (fetch_isSome_iff s).1 (by rw [h]; rfl)

theorem nextInstr_of_fetch {s : State} {w : Word} {i : Instr} (hf : s.fetch = some w)
    (hd : decode s.config w = .ok i) : s.nextInstr = some i := by
  simp [State.nextInstr, hf, hd]

theorem fetch_of_nextInstr {s : State} {i : Instr} (h : s.nextInstr = some i) :
    ∃ w, s.fetch = some w ∧ decode s.config w = .ok i := by
  unfold State.nextInstr at h
  split at h
  · next w hf =>
    split at h
    · next j hd => cases h; exact ⟨w, hf, hd⟩
    · cases h
  · cases h

/-! ### What an instruction can do, in the two outcomes that the cycle distinguishes -/

theorem exec_next {i : Instr} {s t : State} (h : exec i s = .next t) : Effect i s t := by
  obtain ⟨t', ht', he⟩ := exec_effect i s
  rw [h] at ht'
  cases ht'
  exact he

namespace Effect

variable {i : Instr} {s t : State}

theorem config_eq (h : Effect i s t) : t.config = s.config := by cases h <;> rfl

theorem prog_eq (h : Effect i s t) : t.prog = s.prog := by cases h <;> rfl

theorem mode_eq (h : Effect i s t) : t.mode = s.mode := by cases h <;> rfl

/-- An instruction either takes an error or moves on with the run state kept. -/
theorem raises_or_completes (h : Effect i s t) :
    (∃ c, t = s.raise c) ∨ (t.run = s.run ∧ t.pc = s.pc + 4) := by
  cases h with
  | raised c _ => exact .inl ⟨c, rfl⟩
  | advanced _ => exact .inr ⟨rfl, rfl⟩
  | wrote r v _ => exact .inr ⟨rfl, rfl⟩
  | stored r b x _ _ => exact .inr ⟨rfl, rfl⟩

theorem pc_of_running (h : Effect i s t) (hr : t.run = .running) : t.pc = s.pc + 4 := by
  obtain ⟨c, rfl⟩ | ⟨-, hpc⟩ := h.raises_or_completes
  · simp at hr
  · exact hpc

theorem eq_raise_of_error (h : Effect i s t) (hs : s.run = .running) {e : ErrorCause} (he : t.run = .error e) :
    t = s.raise e := by
  obtain ⟨c, rfl⟩ | ⟨hr, -⟩ := h.raises_or_completes
  · cases he; rfl
  · simp [hr, hs] at he

/-- A register changes only as the destination, so an error changes none. -/
theorem destination_of_x_ne (h : Effect i s t) {r : GReg} (hx : t.x r ≠ s.x r) : i.destination = some r.name := by
  cases h with
  | raised c _ => simp at hx
  | advanced _ => simp at hx
  | wrote q v hd =>
    have hq : r = q := by
      by_contra hne
      exact hx (by rw [x_advance, x_setX_other s v hne])
    rw [hq, hd]
  | stored q b x _ _ => simp at hx

end Effect

/-! ### How a step runs: one equation per case of R34 -/

theorem step_of_hostTurn {s : State} {m : HostMove} (h : s.hostTurn = some m) :
    step s = .next (s.endTurn.hostMove m) := by
  simp [step, h]

theorem step_of_machineTurn {s : State} (h : s.hostTurn = none) : step s = machineStep s.endTurn := by
  simp [step, h]

theorem step_of_atEnd {s : State} (h : s.atMachineStep) (hpc : s.pc = 4 * s.prog.length) :
    step s = .next s.endTurn.endRun := by
  obtain ⟨hrun, hturn⟩ := h
  have he : s.atEnd = true := (atEnd_iff s).2 hpc
  simp [step_of_machineTurn hturn, machineStep, hrun, he]

theorem step_of_fetch {s : State} {w : Word} (h : s.atMachineStep) (hf : s.fetch = some w) :
    step s = runWord w s.endTurn := by
  obtain ⟨hrun, hturn⟩ := h
  have he : s.atEnd = false := by
    rw [Bool.eq_false_iff, ne_eq, atEnd_iff]
    exact (pc_lt_of_fetch hf).ne
  simp [step_of_machineTurn hturn, machineStep, hrun, he, hf]

theorem runWord_of_error {s : State} {w : Word} {e : ErrorCause} (hd : decode s.config w = .error e) :
    runWord w s = .next (s.raise e) := by
  simp [runWord, hd]

theorem runWord_of_ok {s t : State} {w : Word} {i : Instr} (hd : decode s.config w = .ok i)
    (hx : exec i s = .next t) : runWord w s = .next t.pauseIfSingleStep := by
  simp [runWord, hd, hx, afterInstruction]

theorem step_of_decode_error {s : State} {w : Word} {e : ErrorCause} (h : s.atMachineStep) (hf : s.fetch = some w)
    (hd : decode s.config w = .error e) : step s = .next (s.endTurn.raise e) := by
  rw [step_of_fetch h hf, runWord_of_error (s := s.endTurn) hd]

theorem step_of_decode_ok {s t : State} {w : Word} {i : Instr} (h : s.atMachineStep) (hf : s.fetch = some w)
    (hd : decode s.config w = .ok i) (hx : exec i s.endTurn = .next t) : step s = .next t.pauseIfSingleStep := by
  rw [step_of_fetch h hf, runWord_of_ok (s := s.endTurn) hd hx]

/-- Running a word always answers a next state: errors are taken into the run state. -/
theorem exists_runWord_next (w : Word) (s : State) : ∃ t, runWord w s = .next t := by
  cases hd : decode s.config w with
  | error e => exact ⟨_, runWord_of_error hd⟩
  | ok i =>
    obtain ⟨t, ht, -⟩ := exec_effect i s
    exact ⟨_, runWord_of_ok hd ht⟩

/-- The fault of a run state in which the machine has no step (R34); none while it is running. -/
def RunState.stopFault : RunState → Option Fault
  | .running => none
  | .paused => some .awaitingSignal
  | .waiting => some .runEnded
  | .error c => some (.stoppedByError c)
  | .off => some .switchedOff

theorem step_of_stopFault {s : State} {f : Fault} (hturn : s.hostTurn = none) (h : s.run.stopFault = some f) :
    step s = .fault f := by
  rw [step_of_machineTurn hturn, machineStep, endTurn_run]
  cases hr : s.run <;> rw [hr] at h <;> cases h <;> rfl

theorem exists_stopFault {r : RunState} (h : r ≠ .running) : ∃ f, r.stopFault = some f := by
  cases r with
  | running => exact absurd rfl h
  | paused | waiting | error _ | off => exact ⟨_, rfl⟩

/-- A running machine whose `pc` lies within the program or at its end has a step. -/
theorem exists_step_next {s : State} (h : s.atMachineStep) (hpc : s.pc ≤ 4 * s.prog.length) :
    ∃ t, step s = .next t := by
  obtain hlt | heq := hpc.lt_or_eq
  · obtain ⟨w, hf⟩ := Option.isSome_iff_exists.1 ((fetch_isSome_iff s).2 hlt)
    rw [step_of_fetch h hf]
    exact exists_runWord_next w s.endTurn
  · exact ⟨_, step_of_atEnd h heq⟩

/-! ### What a step can do -/

/-- The moves of the whole machine: one of the host; the end of the run; an error taken, at decode or by the
instruction; an instruction completed. -/
inductive Move (s : State) : State → Prop where
  | host (m : HostMove) (hm : s.hostTurn = some m) : Move s (s.endTurn.hostMove m)
  | ended (h : s.atMachineStep) (hpc : s.pc = 4 * s.prog.length) : Move s s.endTurn.endRun
  | raised (h : s.atMachineStep) (w : Word) (c : ErrorCause) (hf : s.fetch = some w)
      (hc : decode s.config w = .error c ∨
        ∃ i, decode s.config w = .ok i ∧ exec i s.endTurn = .next (s.endTurn.raise c)) :
      Move s (s.endTurn.raise c)
  | completed (h : s.atMachineStep) (i : Instr) (t : State) (hi : s.nextInstr = some i)
      (he : Effect i s.endTurn t) (hrun : t.run = .running) : Move s t.pauseIfSingleStep

theorem move_of_step {s t : State} (h : step s = .next t) : Move s t := by
  obtain ⟨m, hm, rfl⟩ | ⟨hturn, hstep⟩ := step_next h
  · exact .host m hm
  obtain ⟨hrun, hcases⟩ := machineStep_next hstep
  have hs : s.atMachineStep := ⟨hrun, hturn⟩
  obtain ⟨hpc, rfl⟩ | ⟨w, c, hf, hd, rfl⟩ | ⟨w, i, t', hf, hd, hx, rfl⟩ := hcases
  · exact .ended hs hpc
  · exact .raised hs w c hf (.inl hd)
  · obtain ⟨c, rfl⟩ | ⟨hr, -⟩ := (exec_next hx).raises_or_completes
    · exact .raised hs w c hf (.inr ⟨i, hd, hx⟩)
    · exact .completed hs i t' (nextInstr_of_fetch hf hd) (exec_next hx) (hr.trans hrun)

theorem not_atMachineStep_of_hostTurn {s : State} {m : HostMove} (hm : s.hostTurn = some m) : ¬ s.atMachineStep := by
  rintro ⟨-, hturn⟩
  simp [hm] at hturn

theorem pauseIfSingleStep_run_of_running {s : State} (h : s.run = .running) :
    s.pauseIfSingleStep.run = .running ∨ s.pauseIfSingleStep.run = .paused := by
  rw [pauseIfSingleStep_run]
  split
  · exact .inr rfl
  · exact .inl h

/-! ### The obligations -/

/-- Settles O31: each clause is the equation of `step` for its case of R34. -/
theorem instructionCycleOfTheMachineAndMovesOfTheHost :
    Obligations.InstructionCycleOfTheMachineAndMovesOfTheHost := by
  refine ⟨fun s hm hr => ?_, fun s hm => step_of_hostTurn hm, fun s u hturn hu => ?_⟩
  · simp [step_of_hostTurn hm, State.hostMove, State.endTurn, hr]
  obtain rfl : u = s.endTurn := hu
  refine ⟨fun hr hpc => step_of_atEnd ⟨hr, hturn⟩ hpc, fun w e hr hf hd => ?_, fun w i t e hr hf hd hx he => ?_,
    fun w i t hr hf hd hx ht => ?_, fun hr => ?_, fun hr => ?_, fun e hr => ?_, fun hr => ?_⟩
  · exact step_of_decode_error ⟨hr, hturn⟩ hf hd
  · have hraise : t = s.endTurn.raise e := (exec_next hx).eq_raise_of_error hr he
    rw [step_of_decode_ok ⟨hr, hturn⟩ hf hd hx, hraise]
    rfl
  · have hmode : t.mode = s.mode := (exec_next hx).mode_eq
    refine ⟨(exec_next hx).pc_of_running ht, ?_⟩
    rw [step_of_decode_ok ⟨hr, hturn⟩ hf hd hx, pauseIfSingleStep_of_running ht, hmode]
  all_goals exact step_of_stopFault hturn (by rw [hr]; rfl)

/-- Settles O38: the host always moves, a running machine within its program always steps, and every other run state
has its fault. -/
theorem stepStopsExactlyWhereTheSpecHasNoStep : Obligations.StepStopsExactlyWhereTheSpecHasNoStep := by
  intro s hinv
  obtain ⟨-, -, hpc, -⟩ := (inv_iff s).1 hinv
  by_cases hmoves : s.run = .running ∨ s.hostTurn ≠ none
  · obtain ⟨t, ht⟩ : ∃ t, step s = .next t := by
      cases hturn : s.hostTurn with
      | some m => exact ⟨_, step_of_hostTurn hturn⟩
      | none => exact exists_step_next ⟨hmoves.resolve_right (not_not.2 hturn), hturn⟩ hpc
    simp [ht, hmoves]
  · obtain ⟨hrun, hturn⟩ := not_or.1 hmoves
    obtain ⟨f, hf⟩ := exists_stopFault hrun
    simp [step_of_stopFault (not_not.1 hturn) hf, hmoves]

/-- Settles O40: no move of the host and no effect of an instruction reaches the three fields. -/
theorem programModeAndParametersNeverChange : Obligations.ProgramModeAndParametersNeverChange := by
  intro s t h
  cases move_of_step h with
  | host m _ => simp
  | ended _ _ => simp
  | raised _ w c _ _ => simp
  | completed _ i t' _ he _ => simp [he.prog_eq, he.mode_eq, he.config_eq]

/-- Settles O41: of the four moves only a completed instruction reaches a register, and only its destination. -/
theorem registersStartZeroAndChangeOnlyAsDestination : Obligations.RegistersStartZeroAndChangeOnlyAsDestination := by
  refine ⟨x_powerUp, fun s t r h hx => ?_⟩
  cases move_of_step h with
  | host m _ => simp at hx
  | ended _ _ => simp at hx
  | raised _ w c _ _ => simp at hx
  | completed hs i t' hi he hrun =>
    rw [x_pauseIfSingleStep] at hx
    refine ⟨hs.1, hs.2, (noError_iff _).2 fun e => ?_, i, hi, he.destination_of_x_ne hx⟩
    obtain hr | hr := pauseIfSingleStep_run_of_running hrun <;> simp [hr]

/-- Settles O43: a completed instruction is the only move that changes `pc`, and it starts below the end of the program
at a multiple of 4. -/
theorem pcAdvancesExactlyWhenAnInstructionCompletes : Obligations.PcAdvancesExactlyWhenAnInstructionCompletes := by
  intro s t hinv h
  obtain ⟨-, hmul, hpc, -⟩ := (inv_iff s).1 hinv
  cases move_of_step h with
  | host m hm => simp [not_atMachineStep_of_hostTurn hm, hpc]
  | ended _ _ => simp [hpc]
  | raised _ w c _ _ => simp [hpc]
  | completed hs i t' hi he hrun =>
    obtain ⟨w, hf, -⟩ := fetch_of_nextInstr hi
    have hlt := pc_lt_of_fetch hf
    have hadv : t'.pc = s.pc + 4 := he.pc_of_running hrun
    have hprog : t'.prog = s.prog := he.prog_eq
    refine ⟨fun _ _ => by simp [hadv], fun _ hstop => ?_, fun hhost => absurd hs.2 hhost, ?_⟩
    · obtain hr | hr := pauseIfSingleStep_run_of_running hrun <;> simp [hr] at hstop
    · simp only [pauseIfSingleStep_pc, pauseIfSingleStep_prog, hadv, hprog]
      omega

/-- Settles O30: the fetch at `4 * k` is word `k`, and the equations of `step` and of the pause do the rest. -/
theorem stepRunsTheDecodedInstruction : Obligations.StepRunsTheDecodedInstruction := by
  intro s t k w i hrun hturn hpc hw hd hx
  rw [step_of_decode_ok ⟨hrun, hturn⟩ ((fetch_of_pc_eq hpc).trans hw) hd hx, pauseIfSingleStep_eq]

end Sys2Proof.Machine

/-! Data memory as its users see it, and the statements about memory: O13, O25, O42. -/

namespace Sys2Proof.Machine

/-! ### Canonical memories and what they read as -/

namespace Memory

theorem wfFrom_cons {lo k : Nat} {v : Byte} {m : Memory} :
    wfFrom lo ((k, v) :: m) = true ↔ lo ≤ k ∧ v ≠ unlisted ∧ wfFrom (k + 1) m = true := by
  simp [wfFrom, and_assoc]

@[simp] theorem readByte_cons_self (k : Nat) (v : Byte) (m : Memory) : readByte ((k, v) :: m) k = v := by
  simp [readByte]

theorem readByte_cons_of_ne {k a : Nat} (v : Byte) (m : Memory) (h : a ≠ k) :
    readByte ((k, v) :: m) a = readByte m a := by
  simp [readByte, h]

theorem below_mono {n n' : Nat} {m : Memory} (h : below n m = true) (hle : n ≤ n') : below n' m = true := by
  simp only [below, List.all_eq_true, decide_eq_true_eq] at h ⊢
  exact fun cell hc => (h cell hc).trans_le hle

/-- The first address that a canonical memory lists is the least one that does not read as unlisted. -/
theorem head_le_of_readByte_ne {lo k a : Nat} {v : Byte} {m : Memory} (h : wfFrom lo ((k, v) :: m) = true)
    (ha : readByte ((k, v) :: m) a ≠ unlisted) : k ≤ a := by
  obtain ⟨-, hv, hm⟩ := wfFrom_cons.1 h
  by_contra hlt
  exact ha (readByte_of_lt (wfFrom_cons.2 ⟨le_rfl, hv, hm⟩) (not_le.1 hlt))

/-- The first listed address of a canonical memory is no later than that of a canonical memory with the same bytes. -/
theorem head_le_head {lo lo' k k' : Nat} {v v' : Byte} {m m' : Memory} (h : wfFrom lo ((k, v) :: m) = true)
    (h' : wfFrom lo' ((k', v') :: m') = true)
    (hread : ∀ a, readByte ((k, v) :: m) a = readByte ((k', v') :: m') a) : k ≤ k' := by
  obtain ⟨-, hv', -⟩ := wfFrom_cons.1 h'
  exact head_le_of_readByte_ne h (by rwa [hread, readByte_cons_self])

/-- The bytes after the first listed one agree as well: at its address the rest reads as unlisted. -/
theorem readByte_tail_eq {lo lo' k : Nat} {v v' : Byte} {m m' : Memory} (h : wfFrom lo ((k, v) :: m) = true)
    (h' : wfFrom lo' ((k, v') :: m') = true)
    (hread : ∀ a, readByte ((k, v) :: m) a = readByte ((k, v') :: m') a) (a : Nat) :
    readByte m a = readByte m' a := by
  obtain ⟨-, -, hm⟩ := wfFrom_cons.1 h
  obtain ⟨-, -, hm'⟩ := wfFrom_cons.1 h'
  by_cases hak : a = k
  · rw [readByte_of_lt hm (by omega), readByte_of_lt hm' (by omega)]
  · rw [← readByte_cons_of_ne v m hak, hread, readByte_cons_of_ne v' m' hak]

/-- A canonical memory that reads as unlisted everywhere lists nothing. -/
theorem eq_nil_of_readByte {m : Memory} {lo : Nat} (h : wfFrom lo m = true) (hread : ∀ a, readByte m a = unlisted) :
    m = [] := by
  cases m with
  | nil => rfl
  | cons cell m =>
    obtain ⟨k, v⟩ := cell
    obtain ⟨-, hv, -⟩ := wfFrom_cons.1 h
    exact absurd (hread k) (by rwa [readByte_cons_self])

theorem eq_of_readByte_eq : ∀ {m m' : Memory} {lo lo' : Nat}, wfFrom lo m = true → wfFrom lo' m' = true →
    (∀ a, readByte m a = readByte m' a) → m = m'
  | [], _, _, _, _, h', hread => (eq_nil_of_readByte h' fun a => (hread a).symm).symm
  | _ :: _, [], _, _, h, _, hread => eq_nil_of_readByte h hread
  | (k, v) :: m, (k', v') :: m', _, _, h, h', hread => by
    obtain rfl : k = k' := le_antisymm (head_le_head h h' hread) (head_le_head h' h fun a => (hread a).symm)
    obtain rfl : v = v' := by simpa using hread k
    rw [eq_of_readByte_eq (wfFrom_cons.1 h).2.2 (wfFrom_cons.1 h').2.2 (readByte_tail_eq h h' hread)]

/-- Any bytes below `n` are the content of a canonical memory: write them one after the other. -/
theorem exists_wf_readByte_eq (f : Nat → Byte) (n : Nat) :
    ∃ m : Memory, m.wf = true ∧ m.below n = true ∧ ∀ a, a < n → m.readByte a = f a := by
  induction n with
  | zero => exact ⟨[], rfl, rfl, fun a ha => absurd ha a.not_lt_zero⟩
  | succ n ih =>
    obtain ⟨m, hwf, hbelow, hread⟩ := ih
    refine ⟨m.writeByte n (f n), wf_writeByte n (f n) hwf,
      below_writeByte (f n) (below_mono hbelow n.le_succ) n.lt_succ_self, fun a ha => ?_⟩
    rw [readByte_writeByte hwf]
    split
    · next han => rw [han]
    · next han => exact hread a (by omega)

/-! ### Words -/

/-- A word read where a word was stored is that word (R57, R62). -/
theorem readWord_writeWord {m : Memory} (h : wf m = true) (a : Nat) (v : Word) : readWord (writeWord m a v) a = v := by
  simp [readWord, readByte_writeWord h, ofBytes_bytes]

theorem within_word_of_readByte_writeWord_ne {m : Memory} (h : wf m = true) {a a' : Nat} {v : Word}
    (hne : readByte (writeWord m a v) a' ≠ readByte m a') : a ≤ a' ∧ a' ≤ a + 3 := by
  by_contra hout
  exact hne (readByte_writeWord_outside h a v a' (by omega))

end Memory

/-! ### LOADM and STOREM at an address that passes the checks -/

theorem exec_loadm_of_accessible {s : State} {b i : GReg} (r : GReg)
    (ha : accessError s.config.memSize (s.ea b i) = none) :
    exec (.loadm r.name b.name i.name) s = .next (s.setX r (s.mem.readWord (s.ea b i))).advance := by
  simp [exec, execLoadm, memRead_ok ha]

theorem exec_storem_of_accessible {s : State} {b i : GReg} (r : GReg)
    (ha : accessError s.config.memSize (s.ea b i) = none) :
    exec (.storem r.name b.name i.name) s = .next (s.setMem (s.mem.writeWord (s.ea b i) (s.x r))).advance := by
  simp [exec, execStorem, memWrite_ok ha]

/-! ### Which instructions reach memory -/

/-- Of the effects of an instruction only a store reaches a byte, and only one of its four. -/
theorem Effect.storem_of_readByte_ne {i : Instr} {s t : State} {a : Nat} (h : Effect i s t) (hwf : s.mem.wf = true)
    (hne : t.mem.readByte a ≠ s.mem.readByte a) :
    ∃ r b x : GReg, i = .storem r.name b.name x.name ∧ s.ea b x ≤ a ∧ a ≤ s.ea b x + 3 := by
  cases h with
  | raised c _ => simp at hne
  | advanced _ => simp at hne
  | wrote r v _ => simp at hne
  | stored r b x hi _ => exact ⟨r, b, x, hi, Memory.within_word_of_readByte_writeWord_ne hwf hne⟩

/-- A checked meaning does not depend on memory if what follows the check does not. -/
theorem withChecked_setMem {α : Type} {check : Except ErrorCause α} {s t : State} {m : Memory} {k k' : α → Result}
    (hk : ∀ a u, k a = .next u → k' a = .next (u.setMem m)) (h : withChecked check s k = .next t) :
    withChecked check (s.setMem m) k' = .next (t.setMem m) := by
  cases check with
  | error c => cases h; rfl
  | ok a => exact hk a t h

/-- NOP, ADD and ADDI do the same whatever memory holds (R50). -/
theorem exec_setMem {i : Instr} {s t : State} (m : Memory) (hload : ∀ r b x, i ≠ .loadm r b x)
    (hstore : ∀ r b x, i ≠ .storem r b x) (h : exec i s = .next t) : exec i (s.setMem m) = .next (t.setMem m) := by
  cases i with
  | nop => cases h; rfl
  | add d a b => exact withChecked_setMem (fun _ _ hu => by cases hu; rfl) h
  | addi d a n8 => exact withChecked_setMem (fun _ _ hu => by cases hu; rfl) h
  | loadm r b x => exact absurd rfl (hload r b x)
  | storem r b x => exact absurd rfl (hstore r b x)

/-! ### The obligations -/

/-- Settles O13: writing the bytes one after the other gives the memory, and a canonical memory is determined by its
bytes, cell by cell. -/
theorem everyMemoryContentIsOneCanonicalMemory : Obligations.EveryMemoryContentIsOneCanonicalMemory :=
  ⟨fun n f => Memory.exists_wf_readByte_eq f n, fun _ _ h h' hread => Memory.eq_of_readByte_eq h h' hread⟩

/-- Settles O25: the store leaves the registers and so the address, and the word read there is the word written. -/
theorem storeThenLoadReturnsTheStoredWord : Obligations.StoreThenLoadReturnsTheStoredWord := by
  intro s r r' b i hwf halign hrange
  have ha : accessError s.config.memSize (s.ea b i) = none :=
    (Memory.accessError_eq_none_iff _ _).2 ⟨halign, hrange⟩
  exact ⟨_, _, exec_storem_of_accessible r ha, exec_loadm_of_accessible r' ha,
    (x_setX_self _ r' _).trans (Memory.readWord_writeWord hwf (s.ea b i) (s.x r)), rfl, rfl⟩

/-- Settles O42: of the four moves only a completed instruction reaches memory, and that only by a store. -/
theorem onlyLoadAndStoreReachMemory : Obligations.OnlyLoadAndStoreReachMemory := by
  refine ⟨fun s t a hwf h hne => ?_, fun i s t m hload hstore h => exec_setMem m hload hstore h⟩
  cases move_of_step h with
  | host m _ => simp at hne
  | ended _ _ => simp at hne
  | raised _ w c _ _ => simp at hne
  | completed hs i t' hi he _ =>
    rw [pauseIfSingleStep_mem] at hne
    obtain ⟨r, b, x, rfl, hword⟩ := he.storem_of_readByte_ne hwf hne
    exact ⟨hs.1, hs.2, r, b, x, hi, hword⟩

end Sys2Proof.Machine


/-! Encoding as its users see it, and what an instruction does on any operand bytes: O4 to O8, O21, O23, O26. -/

namespace Sys2Proof

/-! ### Assigned opcodes (R93, R95) -/

/-- The five assigned opcodes. -/
def Config.assignedOpcodes (c : Config) : List Byte := [0x00#8, 0x40#8, 0x41#8, c.opcLoadm, c.opcStorem]

theorem notMem_assignedOpcodes_iff {c : Config} {b : Byte} : b ∉ c.assignedOpcodes ↔
    b ≠ 0x00#8 ∧ b ≠ 0x40#8 ∧ b ≠ 0x41#8 ∧ b ≠ c.opcLoadm ∧ b ≠ c.opcStorem := by
  simp [Config.assignedOpcodes]

theorem nodup_assignedOpcodes {c : Config} (h : c.wf = true) : c.assignedOpcodes.Nodup := by
  obtain ⟨-, -, -, -, hls⟩ := Config.wf_opcodes h
  obtain ⟨hl0, hl40, hl41, hs0, hs40, hs41⟩ := Config.wf_opcode_ne h
  simp [Config.assignedOpcodes, hls, hl0.symm, hl40.symm, hl41.symm, hs0.symm, hs40.symm, hs41.symm]

/-- The numbers below 256 are the 256 bytes: those outside a list without repetitions are as many as it leaves over. -/
theorem length_filter_range_notMem {l : List Byte} (hl : l.Nodup) {p : Nat → Bool}
    (hp : ∀ n, p n = true ↔ BitVec.ofNat 8 n ∉ l) : ((List.range 256).filter p).length = 256 - l.length := by
  calc ((List.range 256).filter p).length
      = ((Finset.range 256).filter fun n => p n = true).card := by
        rw [← List.toFinset_range, ← List.toFinset_filter, List.toFinset_card_of_nodup (List.nodup_range.filter p)]
    _ = l.toFinsetᶜ.card := by
        refine Finset.card_nbij' (BitVec.ofNat 8) BitVec.toNat (fun n hn => ?_) (fun b hb => ?_) (fun n hn => ?_)
          fun b _ => ?_
        · simp_all
        · have := b.isLt
          simp_all
        · simp_all
        · simp
    _ = 256 - l.length := by
        rw [Finset.card_compl, List.toFinset_card_of_nodup hl, ← FinEnum.card_eq_fintypeCard, FinEnum.card_bitVec]
        rfl

/-- The opcodes without a format are the unassigned ones (R94, R95). -/
theorem formatOf_eq_none_iff {c : Config} {b : Byte} : formatOf c b = none ↔ b ∉ c.assignedOpcodes := by
  rw [notMem_assignedOpcodes_iff]
  unfold formatOf
  split_ifs <;> simp [*]

/-! ### The decoder, one equation per opcode (R100) -/

section Opcodes

variable {c : Config} {w : Word}

theorem decode_of_nop (h : w.b1 = 0x00#8) : decode c w = .ok .nop := by
  simp [decode, h]

theorem decode_of_add (h : w.b1 = 0x40#8) :
    decode c w = checked (regs3 w.b2 w.b3 w.b4) (.add w.b2 w.b3 w.b4) := by
  simp [decode, h]

theorem decode_of_addi (h : w.b1 = 0x41#8) : decode c w = checked (regs2 w.b2 w.b3) (.addi w.b2 w.b3 w.b4) := by
  simp [decode, h]

theorem decode_of_loadm (hc : c.wf = true) (h : w.b1 = c.opcLoadm) :
    decode c w = checked (regs3 w.b2 w.b3 w.b4) (.loadm w.b2 w.b3 w.b4) := by
  obtain ⟨h0, h40, h41, -⟩ := Config.wf_opcode_ne hc
  simp [decode, h, h0, h40, h41]

theorem decode_of_storem (hc : c.wf = true) (h : w.b1 = c.opcStorem) :
    decode c w = checked (regs3 w.b2 w.b3 w.b4) (.storem w.b2 w.b3 w.b4) := by
  obtain ⟨-, -, -, -, hls⟩ := Config.wf_opcodes hc
  obtain ⟨-, -, -, h0, h40, h41⟩ := Config.wf_opcode_ne hc
  simp [decode, h, h0, h40, h41, hls.symm]

theorem decode_of_notMem_assignedOpcodes (h : w.b1 ∉ c.assignedOpcodes) :
    decode c w = .error (.illegalOpcode w.b1) := by
  obtain ⟨h0, h40, h41, hl, hs⟩ := notMem_assignedOpcodes_iff.1 h
  simp [decode, h0, h40, h41, hl, hs]

end Opcodes

theorem decode_wordOf_of_notMem_assignedOpcodes {c : Config} {b1 : Byte} (h : b1 ∉ c.assignedOpcodes)
    (b2 b3 b4 : Byte) : decode c (wordOf b1 b2 b3 b4) = .error (.illegalOpcode b1) := by
  have hb1 : (wordOf b1 b2 b3 b4).b1 = b1 := by rw [wordOf_eq_ofBytes, b1_ofBytes]
  rw [decode_of_notMem_assignedOpcodes (hb1.symm ▸ h), hb1]

/-! ### The decoder on an instruction's own word (R88) -/

theorem checked_regs2 (d s : RegByte) (i : Instr) :
    checked (regs2 d s) i = (firstBadRegister [(.first, d), (.second, s)]).elim (.ok i) .error := by
  cases h : firstBadRegister [(.first, d), (.second, s)] with
  | none =>
    obtain ⟨r, hr⟩ := (regs2_ok_iff d s).2 h
    rw [hr]; rfl
  | some e => rw [(regs2_error_iff d s e).2 h]; rfl

theorem checked_regs3 (d s t : RegByte) (i : Instr) :
    checked (regs3 d s t) i = (firstBadRegister [(.first, d), (.second, s), (.third, t)]).elim (.ok i) .error := by
  cases h : firstBadRegister [(.first, d), (.second, s), (.third, t)] with
  | none =>
    obtain ⟨r, hr⟩ := (regs3_ok_iff d s t).2 h
    rw [hr]; rfl
  | some e => rw [(regs3_error_iff d s t e).2 h]; rfl

theorem elim_error_eq_match (o : Option ErrorCause) (i : Instr) :
    o.elim (Except.ok i) .error =
      match o with
      | some e => .error e
      | none => .ok i := by
  cases o <;> rfl

/-- The word of an instruction decodes to the instruction, but for a bad register byte, the first of which gives the
error. -/
theorem decode_encode_eq {c : Config} (hc : c.wf = true) (i : Instr) :
    decode c (encode c i) = (firstBadRegister i.registerBytes).elim (.ok i) .error := by
  cases i with
  | nop => exact decode_of_nop (b1_ofBytes _ 0#8 0#8 0#8)
  | add d s t =>
    simpa [encode, Instr.opcode, Instr.registerBytes, checked_regs3] using
      decode_of_add (c := c) (b1_ofBytes _ d s t)
  | addi d s n8 =>
    simpa [encode, Instr.opcode, Instr.registerBytes, checked_regs2] using
      decode_of_addi (c := c) (b1_ofBytes _ d s n8)
  | loadm r b x =>
    simpa [encode, Instr.opcode, Instr.registerBytes, checked_regs3] using
      decode_of_loadm hc (b1_ofBytes _ r b x)
  | storem r b x =>
    simpa [encode, Instr.opcode, Instr.registerBytes, checked_regs3] using
      decode_of_storem hc (b1_ofBytes _ r b x)

/-! ### Formats (R89, R90, R94) -/

/-- What the decoder accepts has the fields that the format of its opcode reads. -/
theorem formatOf_of_decode_ok {c : Config} {w : Word} {i : Instr} (h : decode c w = .ok i) :
    ∃ f, formatOf c w.b1 = some f ∧ f.read w = i.fields := by
  unfold decode at h
  unfold formatOf
  split_ifs at h ⊢ with h0 h40 h41 hl hs
  · cases h; exact ⟨_, rfl, rfl⟩
  all_goals
    obtain ⟨rfl, -⟩ := checked_ok h
    exact ⟨_, rfl, rfl⟩

/-- Putting a byte after a number makes it the least significant one. -/
theorem toNat_append_byte {k : Nat} (n : BitVec k) (b : Byte) : (n ++ b).toNat = n.toNat * 2 ^ 8 + b.toNat := by
  rw [BitVec.toNat_append, ← Nat.shiftLeft_add_eq_or_of_lt b.isLt, Nat.shiftLeft_eq]

/-! ### Categories (R92) -/

/-- The top three bits of the opcodes of a category. -/
def Category.topBits : Category → Nat
  | .control => 0
  | .loadStore => 1
  | .arithmetic => 2
  | .logical => 3
  | .compare => 4
  | .jump => 5
  | .subroutine => 6
  | .system => 7

theorem topBits_categoryOf (b : Byte) : (categoryOf b).topBits = b.toNat / 32 := by
  have := b.isLt
  have h : b.toNat / 32 < 8 := by omega
  unfold categoryOf
  generalize b.toNat / 32 = k at h ⊢
  interval_cases k <;> rfl

theorem categoryOf_eq_iff (b : Byte) (cat : Category) : categoryOf b = cat ↔ b.toNat / 32 = cat.topBits := by
  constructor
  · rintro rfl
    exact (topBits_categoryOf b).symm
  · intro h
    unfold categoryOf
    rw [h]
    cases cat <;> rfl

theorem categoryOf_of_loadStoreRange {b : Byte} (h : 0x20 ≤ b.toNat) (h' : b.toNat ≤ 0x3F) :
    categoryOf b = .loadStore :=
  (categoryOf_eq_iff b .loadStore).2 (by simp only [Category.topBits]; omega)

end Sys2Proof

namespace Sys2Proof.Machine

/-! ### Errors at decode -/

theorem checked_error {α : Type} {check : Except ErrorCause α} {i : Instr} {e : ErrorCause}
    (h : checked check i = .error e) : check = .error e := by
  cases check with
  | error c => cases h; rfl
  | ok a => cases h

/-- Every error of the decoder is one that the table of R190 allows. -/
theorem decode_error_genuine {c : Config} {w : Word} {e : ErrorCause} (h : decode c w = .error e) :
    genuine c e = true := by
  unfold decode at h
  split_ifs at h with h0 h40 h41 hl hs
  · exact regs3_error_genuine (checked_error h)
  · exact regs2_error_genuine (checked_error h)
  · exact regs3_error_genuine (checked_error h)
  · exact regs3_error_genuine (checked_error h)
  · cases h
    simpa [genuine] using formatOf_eq_none_iff.2 (notMem_assignedOpcodes_iff.2 ⟨h0, h40, h41, hl, hs⟩)

/-! ### Executing operand bytes of any value -/

theorem exec_of_firstBadRegister {i : Instr} {e : ErrorCause} (s : State)
    (h : firstBadRegister i.registerBytes = some e) : exec i s = .next (s.raise e) := by
  cases i with
  | nop => cases h
  | add d a b => simp [exec, execAdd, (regs3_error_iff d a b e).2 h]
  | addi d a n8 => simp [exec, execAddi, (regs2_error_iff d a e).2 h]
  | loadm r b x => simp [exec, execLoadm, (regs3_error_iff r b x e).2 h]
  | storem r b x => simp [exec, execStorem, (regs3_error_iff r b x e).2 h]

theorem Effect.turns_eq {i : Instr} {s t : State} (h : Effect i s t) : t.turns = s.turns := by cases h <;> rfl

/-! ### ADDI on registers, and its number (R91, R151) -/

theorem exec_addi_name (s : State) (d a : GReg) (n8 : Byte) :
    exec (.addi d.name a.name n8) s =
      .next (s.setX d (add32 (s.x a) (ext8 s.config.immExt n8))).advance := by
  simp [exec, execAddi]

/-- The two ways of widening agree on the numbers whose top bit is clear. -/
theorem ext8_zero_eq_sign_iff (n8 : Byte) : ext8 .zero n8 = ext8 .sign n8 ↔ n8.toNat < 0x80 := by
  have hmsb : n8.msb = true ↔ 0x80 ≤ n8.toNat := by simp [BitVec.msb_eq_decide]
  have := n8.isLt
  rw [← BitVec.toNat_inj]
  simp only [ext8, BitVec.toNat_signExtend, BitVec.toNat_setWidth, hmsb]
  split <;> omega

theorem add32_right_inj (a b b' : Word) : add32 a b = add32 a b' ↔ b = b' := by
  rw [add32_eq, add32_eq, add_right_inj]

/-! ### The obligations -/

/-- Settles O4: a word with an assigned opcode other than 0x00 is the word of an instruction. -/
theorem decoderIsTheCaseTableOfTheSpec : Obligations.DecoderIsTheCaseTableOfTheSpec := by
  intro c b1 b2 b3 b4 hc
  rw [wordOf_eq_ofBytes]
  refine ⟨?_, ?_, ?_, ?_, ?_, fun h0 h40 h41 hl hs => ?_⟩
  · rintro rfl
    exact decode_of_nop (b1_ofBytes _ _ _ _)
  · rintro rfl
    exact (decode_encode_eq hc (.add b2 b3 b4)).trans (elim_error_eq_match _ _)
  · rintro rfl
    exact (decode_encode_eq hc (.addi b2 b3 b4)).trans (elim_error_eq_match _ _)
  · rintro rfl
    exact (decode_encode_eq hc (.loadm b2 b3 b4)).trans (elim_error_eq_match _ _)
  · rintro rfl
    exact (decode_encode_eq hc (.storem b2 b3 b4)).trans (elim_error_eq_match _ _)
  · rw [← wordOf_eq_ofBytes]
    exact decode_wordOf_of_notMem_assignedOpcodes (notMem_assignedOpcodes_iff.2 ⟨h0, h40, h41, hl, hs⟩) b2 b3 b4

/-- Settles O5: the five assigned opcodes are distinct, and none of them is 0x01 or 0x12. -/
theorem unassignedOpcodesAre251AndStopTheMachine : Obligations.UnassignedOpcodesAre251AndStopTheMachine := by
  intro c hc
  refine ⟨?_, fun b hb => ?_, fun s b1 b2 b3 b4 hs hm hf h0 h40 h41 hl hst => ?_⟩
  · exact length_filter_range_notMem (nodup_assignedOpcodes hc) fun n =>
      decide_eq_true_iff.trans notMem_assignedOpcodes_iff.symm
  · obtain ⟨hl, -, hs, -⟩ := Config.wf_opcodes hc
    have hlow : b.toNat < 0x20 := by obtain rfl | rfl := hb <;> decide
    have hfixed : b ≠ 0x00#8 ∧ b ≠ 0x40#8 ∧ b ≠ 0x41#8 := by obtain rfl | rfl := hb <;> decide
    obtain ⟨h0, h40, h41⟩ := hfixed
    exact ⟨h0, h40, h41, by rintro rfl; omega, by rintro rfl; omega⟩
  · subst hs
    have hb : b1 ∉ s.config.assignedOpcodes := notMem_assignedOpcodes_iff.2 ⟨h0, h40, h41, hl, hst⟩
    exact step_of_decode_error hm hf (decode_wordOf_of_notMem_assignedOpcodes hb b2 b3 b4)

/-- Settles O6: each byte of the word is read back, and a byte appended has the lowest weight. -/
theorem formatsReadTheBytesByWeight : Obligations.FormatsReadTheBytesByWeight := by
  intro b1 b2 b3 b4
  rw [wordOf_eq_ofBytes]
  refine ⟨rfl, ⟨b2 ++ b3 ++ b4, by simp [Format.read], ?_⟩,
    ⟨b3 ++ b4, by simp [Format.read], toNat_append_byte b3 b4⟩, by simp [Format.read], by simp [Format.read]⟩
  rw [toNat_append_byte, toNat_append_byte]
  omega

/-- Settles O7: the decoder and the format examine the opcode alike, and no other error of the decoder names it. -/
theorem opcodeAloneFixesTheFormat : Obligations.OpcodeAloneFixesTheFormat := by
  refine fun c w => ⟨fun i h => ?_, fun h => ?_, fun h => ?_⟩
  · obtain ⟨f, hf, hread⟩ := formatOf_of_decode_ok h
    rw [hf, Option.map_some, hread]
  · exact decode_of_notMem_assignedOpcodes (formatOf_eq_none_iff.1 h)
  · simpa [genuine] using decode_error_genuine h

/-- Settles O8: a category is the value of the top three bits, and R3 puts the opcodes of LOADM and STOREM in the
load/store range. -/
theorem categoryIsTheRangeOfTheOpcode : Obligations.CategoryIsTheRangeOfTheOpcode := by
  refine ⟨fun b => ?_, fun c w i hc h => ?_⟩
  · have := b.isLt
    simp only [categoryOf_eq_iff, Category.topBits]
    omega
  · obtain ⟨hl, hl', hs, hs', -⟩ := Config.wf_opcodes hc
    obtain ⟨hb, rfl⟩ | ⟨hb, rfl, -⟩ | ⟨hb, rfl, -⟩ | ⟨hb, rfl, -⟩ | ⟨hb, rfl, -⟩ := decode_ok h
    · rw [hb]; rfl
    · rw [hb]; rfl
    · rw [hb]; rfl
    · rw [hb]; exact categoryOf_of_loadStoreRange hl hl'
    · rw [hb]; exact categoryOf_of_loadStoreRange hs hs'

/-- Settles O21: decoder and meaning make the same check. -/
theorem firstBadRegisterByteGivesTheError : Obligations.FirstBadRegisterByteGivesTheError := by
  intro s i hc
  rw [decode_encode_eq hc]
  exact ⟨fun e h => ⟨by rw [h]; rfl, exec_of_firstBadRegister s h⟩, fun h => by rw [h]; rfl⟩

/-- Settles O23: the results are sums with the same register, equal exactly when the widened numbers are. -/
theorem immediateExtensionMattersFrom0x80On : Obligations.ImmediateExtensionMattersFrom0x80On := by
  rintro s z g d a n8 rfl rfl
  refine ⟨_, _, exec_addi_name _ d a n8, exec_addi_name _ d a n8, ?_, fun r hr => ?_, rfl, rfl, rfl⟩
  · rw [x_advance, x_advance, x_setX_self, x_setX_self]
    exact (add32_right_inj (s.x a) _ _).trans (ext8_zero_eq_sign_iff n8)
  · rw [x_advance, x_advance, x_setX_other _ _ hr, x_setX_other _ _ hr]
    rfl

/-- Settles O26: of the effects of an instruction only a raised error does not complete. -/
theorem everyInstructionCompletesOrOnlyRaises : Obligations.EveryInstructionCompletesOrOnlyRaises := by
  intro i s
  obtain ⟨t, ht, he⟩ := exec_effect i s
  refine ⟨t, ht, ?_⟩
  obtain ⟨c, rfl⟩ | ⟨hrun, hpc⟩ := he.raises_or_completes
  · exact .inr ⟨c, rfl⟩
  · exact .inl ⟨hpc, hrun, he.config_eq, he.prog_eq, he.mode_eq, he.turns_eq⟩

end Sys2Proof.Machine


/-! NOP, and runs of it: O15. -/

namespace Sys2Proof.Machine

/-! ### Steps in a row, and the turn of the machine when the host has no move left -/

theorem steps_succ_of_step {s t : State} (h : step s = .next t) (k : Nat) : steps (k + 1) s = steps k t := by
  simp [steps, h]

theorem atMachineStep_of_turns_nil {s : State} (hrun : s.run = .running) (hturns : s.turns = []) :
    s.atMachineStep :=
  ⟨hrun, by simp [State.hostTurn, hturns]⟩

/-- When the order of moves is used up, taking a turn leaves it so. -/
theorem endTurn_of_turns_nil {s : State} (h : s.turns = []) : s.endTurn = s := by
  rw [State.endTurn, h, List.tail_nil, ← h]

/-! ### NOP (R83, R120) -/

theorem exec_nop (s : State) : exec .nop s = .next s.advance := rfl

theorem b1_wordOf (b1 b2 b3 b4 : Byte) : (wordOf b1 b2 b3 b4).b1 = b1 := by
  rw [wordOf_eq_ofBytes, b1_ofBytes]

/-- The fill bytes of NOP's own word are 0. -/
theorem encode_nop (c : Config) : encode c .nop = 0#32 := by
  simp [encode, Instr.opcode, ofBytes]

theorem step_of_nop {s : State} {w : Word} (h : s.atMachineStep) (hf : s.fetch = some w) (hw : w.b1 = 0x00#8) :
    step s = .next s.endTurn.advance.pauseIfSingleStep :=
  step_of_decode_ok h hf (decode_of_nop hw) (exec_nop s.endTurn)

/-- In normal mode, with no move of the host to come, a step on a NOP is the advance alone. -/
theorem step_of_nop_of_normal {s : State} {w : Word} (hrun : s.run = .running) (hmode : s.mode = .normal)
    (hturns : s.turns = []) (hf : s.fetch = some w) (hw : w.b1 = 0x00#8) : step s = .next s.advance := by
  rw [step_of_nop (atMachineStep_of_turns_nil hrun hturns) hf hw, endTurn_of_turns_nil hturns, pauseIfSingleStep_eq,
    if_neg (by simp [hmode])]

/-- A run over NOPs only, from instruction number `j` with `n` instructions left: each is one step, and one more ends
the run. -/
theorem steps_of_nops {n j : Nat} {s : State} (hrun : s.run = .running) (hmode : s.mode = .normal)
    (hturns : s.turns = []) (hnop : ∀ w ∈ s.prog, w.b1 = 0x00#8) (hpc : s.pc = 4 * j) (hlen : j + n = s.prog.length) :
    steps (n + 1) s = .next { s with pc := 4 * s.prog.length, run := .waiting } := by
  induction n generalizing s j with
  | zero =>
    have hend : s.pc = 4 * s.prog.length := by rw [hpc, ← hlen, Nat.add_zero]
    rw [steps_succ_of_step (step_of_atEnd (atMachineStep_of_turns_nil hrun hturns) hend), steps,
      endTurn_of_turns_nil hturns, ← hend]
    rfl
  | succ n ih =>
    have hj : j < s.prog.length := by omega
    have hf : s.fetch = some s.prog[j] := by rw [fetch_of_pc_eq hpc, List.getElem?_eq_getElem hj]
    have hstep : step s = .next s.advance :=
      step_of_nop_of_normal hrun hmode hturns hf (hnop _ (List.getElem_mem hj))
    rw [steps_succ_of_step hstep]
    exact ih (j := j + 1) hrun hmode hturns hnop (by rw [advance_pc, hpc]; omega) (by rw [advance_prog]; omega)

/-! ### The obligation -/

/-- Settles O15: the first byte alone makes a word a NOP, and a program of such words is run by induction on the
instructions left. -/
theorem nopOnlyAdvancesWhateverItsFillBytes : Obligations.NopOnlyAdvancesWhateverItsFillBytes := by
  refine ⟨exec_nop, encode_nop, fun c b2 b3 b4 => decode_of_nop (b1_wordOf _ b2 b3 b4),
    fun s b2 b3 b4 hs hf => ?_, fun l hmode hturns hprog => ?_⟩
  · rw [step_of_nop hs hf (b1_wordOf _ b2 b3 b4), pauseIfSingleStep_of_running (s := s.endTurn.advance) hs.1]
    rfl
  · have hnop : ∀ w ∈ l.prog, w.b1 = 0x00#8 := by
      intro w hw
      obtain ⟨b2, b3, b4, rfl⟩ := hprog w hw
      exact b1_wordOf _ b2 b3 b4
    exact steps_of_nops (s := State.powerUp l) (j := 0) rfl hmode hturns hnop rfl (Nat.zero_add _)

end Sys2Proof.Machine


/-! LOADM and STOREM, and the part that the open opcodes play: O18, O19, O24. -/

namespace Sys2Proof.Machine

/-! ### The words of LOADM and STOREM (R93, R131, R132) -/

theorem encode_loadm (c : Config) (r b i : RegByte) : encode c (.loadm r b i) = wordOf c.opcLoadm r b i :=
  (wordOf_eq_ofBytes c.opcLoadm r b i).symm

theorem encode_storem (c : Config) (r b i : RegByte) : encode c (.storem r b i) = wordOf c.opcStorem r b i :=
  (wordOf_eq_ofBytes c.opcStorem r b i).symm

theorem firstBadRegister_names (r1 r2 r3 : GReg) :
    firstBadRegister [(.first, r1.name), (.second, r2.name), (.third, r3.name)] = none :=
  (regs3_ok_iff _ _ _).1 ⟨_, regs3_name r1 r2 r3⟩

theorem decode_encode_of_firstBadRegister_eq_none {c : Config} (hc : c.wf = true) {i : Instr}
    (h : firstBadRegister i.registerBytes = none) : decode c (encode c i) = .ok i := by
  rw [decode_encode_eq hc, h, Option.elim_none]

/-! ### An access that fails its checks (R58, R59) -/

theorem accessError_of_misaligned {ea : Nat} (memSize : Nat) (h : ea % 4 ≠ 0) :
    accessError memSize ea = some (.misalignedAccess ea) :=
  if_pos h

theorem accessError_of_outside {memSize ea : Nat} (halign : ea % 4 = 0) (hout : memSize ≤ ea + 3) :
    accessError memSize ea = some (.memoryRange ea) := by
  rw [accessError, if_neg (not_not.2 halign), if_pos hout]

/-- LOADM and STOREM take the error of the access checks and do nothing else. -/
theorem exec_of_accessError {i : Instr} {s : State} {r b x : GReg} {e : ErrorCause}
    (hi : i = .loadm r.name b.name x.name ∨ i = .storem r.name b.name x.name)
    (ha : accessError s.config.memSize (s.ea b x) = some e) : exec i s = .next (s.raise e) := by
  obtain rfl | rfl := hi
  · simp [exec, execLoadm, memRead_error ha]
  · simp [exec, execStorem, memWrite_error ha]

/-! ### The open opcodes (decision D11) -/

/-- The machine with other opcodes for LOADM and STOREM. -/
def State.withOpcodes (opcLoadm opcStorem : Byte) (s : State) : State :=
  { s with config := { s.config with opcLoadm := opcLoadm, opcStorem := opcStorem } }

/-- Parameters that agree in `MEM_SIZE` and `IMM8_EXT` differ in the open opcodes at most. -/
theorem withOpcodes_eq {s : State} {c : Config} (hmem : c.memSize = s.config.memSize)
    (himm : c.immExt = s.config.immExt) : s.withOpcodes c.opcLoadm c.opcStorem = { s with config := c } := by
  simp only [State.withOpcodes, ← hmem, ← himm]

theorem withOpcodes_raise (l m : Byte) (e : ErrorCause) (s : State) :
    (s.raise e).withOpcodes l m = (s.withOpcodes l m).raise e := rfl

/-- A change `f` of the state that an error entry keeps is kept by a checked meaning if what follows the check keeps
it. -/
theorem withChecked_map {α : Type} {f : State → State} (hf : ∀ c s, f (s.raise c) = (f s).raise c)
    {check : Except ErrorCause α} {s t : State} {k k' : α → Result}
    (hk : ∀ a u, k a = .next u → k' a = .next (f u)) (h : withChecked check s k = .next t) :
    withChecked check (f s) k' = .next (f t) := by
  cases check with
  | error c => cases h; rw [hf]; rfl
  | ok a => exact hk a t h

/-- No meaning reads an open opcode. -/
theorem exec_withOpcodes {i : Instr} {s t : State} (l m : Byte) (h : exec i s = .next t) :
    exec i (s.withOpcodes l m) = .next (t.withOpcodes l m) := by
  have hf := withOpcodes_raise l m
  cases i with
  | nop => cases h; rfl
  | add d a b => exact withChecked_map hf (fun _ _ hu => by cases hu; rfl) h
  | addi d a n8 => exact withChecked_map hf (fun _ _ hu => by cases hu; rfl) h
  | loadm r b x =>
    exact withChecked_map hf (fun _ _ hu => withChecked_map hf (fun _ _ hv => by cases hv; rfl) hu) h
  | storem r b x =>
    exact withChecked_map hf (fun _ _ hu => withChecked_map hf (fun _ _ hv => by cases hv; rfl) hu) h

/-! ### The obligations -/

/-- Settles O18: the word at the full sum is read where the access checks pass, and each failing check is the error
taken. -/
theorem loadmReadsTheWordAtTheFullSum : Obligations.LoadmReadsTheWordAtTheFullSum := by
  refine ⟨fun c r b i hc => ?_, ?_, fun s r b i e hc he => ?_, ?_⟩
  · rw [← encode_loadm]
    exact decode_encode_of_firstBadRegister_eq_none hc (firstBadRegister_names r b i)
  · rintro s r b i _ rfl halign hrange
    rw [wordOf_eq_ofBytes]
    exact exec_loadm_of_accessible r ((Memory.accessError_eq_none_iff _ _).2 ⟨halign, hrange⟩)
  · rw [← encode_loadm]
    exact (firstBadRegisterByteGivesTheError s (.loadm r b i) hc).1 e he
  · rintro s r b i _ rfl
    exact ⟨fun h => exec_of_accessError (.inl rfl) (accessError_of_misaligned _ h),
      fun halign hout => exec_of_accessError (.inl rfl) (accessError_of_outside halign hout)⟩

/-- Settles O19: the memory of the next state is the word written at the full sum, read back as the word and unchanged
outside its four bytes. -/
theorem storemWritesTheFourBytesAtTheFullSum : Obligations.StoremWritesTheFourBytesAtTheFullSum := by
  refine ⟨fun c r b i hc => ?_, ?_, fun s r b i e hc he => ?_, ?_⟩
  · rw [← encode_storem]
    exact decode_encode_of_firstBadRegister_eq_none hc (firstBadRegister_names r b i)
  · rintro s r b i _ hwf rfl halign hrange
    refine ⟨s.mem.writeWord (s.ea b i) (s.x r), ?_, Memory.wf_writeWord _ _ hwf, ?_,
      Memory.readByte_writeWord_outside hwf _ _⟩
    · exact exec_storem_of_accessible r ((Memory.accessError_eq_none_iff _ _).2 ⟨halign, hrange⟩)
    · rw [wordOf_eq_ofBytes]
      exact (Memory.readWord_writeWord hwf (s.ea b i) (s.x r)).symm
  · rw [← encode_storem]
    exact (firstBadRegisterByteGivesTheError s (.storem r b i) hc).1 e he
  · rintro s r b i _ rfl
    exact ⟨fun h => exec_of_accessError (.inr rfl) (accessError_of_misaligned _ h),
      fun halign hout => exec_of_accessError (.inr rfl) (accessError_of_outside halign hout)⟩

/-- Settles O24: parameters that agree in `MEM_SIZE` and `IMM8_EXT` are the machine's own but for the open opcodes, and
no meaning reads those. -/
theorem openOpcodesDoNotAffectExecution : Obligations.OpenOpcodesDoNotAffectExecution := by
  intro i s t c hmem himm h
  have hcfg : t.config = s.config := (exec_next h).config_eq
  rw [← withOpcodes_eq hmem himm, ← withOpcodes_eq (s := t) (hcfg ▸ hmem) (hcfg ▸ himm)]
  exact exec_withOpcodes c.opcLoadm c.opcStorem h

end Sys2Proof.Machine


/-! ADD and ADDI: their words and their results: O16, O17. -/

namespace Sys2Proof.Machine

/-! ### The words of ADD and ADDI (R88, R150, R151)

Their opcodes are fixed, so that no constraint on the open opcodes is needed. -/

theorem decode_wordOf_add (c : Config) (d s t : RegByte) : decode c (wordOf 0x40#8 d s t) =
    (firstBadRegister [(.first, d), (.second, s), (.third, t)]).elim (.ok (.add d s t)) .error := by
  rw [wordOf_eq_ofBytes, decode_of_add (b1_ofBytes _ d s t), b2_ofBytes, b3_ofBytes, b4_ofBytes, checked_regs3]

theorem decode_wordOf_addi (c : Config) (d s : RegByte) (n8 : Byte) : decode c (wordOf 0x41#8 d s n8) =
    (firstBadRegister [(.first, d), (.second, s)]).elim (.ok (.addi d s n8)) .error := by
  rw [wordOf_eq_ofBytes, decode_of_addi (b1_ofBytes _ d s n8), b2_ofBytes, b3_ofBytes, b4_ofBytes, checked_regs2]

theorem firstBadRegister_two_names (r1 r2 : GReg) :
    firstBadRegister [(.first, r1.name), (.second, r2.name)] = none :=
  (regs2_ok_iff _ _).1 ⟨_, regs2_name r1 r2⟩

/-! ### The results (R91, R150) -/

theorem exec_add_name (st : State) (d s t : GReg) :
    exec (.add d.name s.name t.name) st = .next (st.setX d (add32 (st.x s) (st.x t))).advance := by
  simp [exec, execAdd]

/-- Sign extension puts 24 one bits above a number whose top bit is set, and is zero extension on any other. -/
theorem ext8_toNat (e : ImmExt) (n8 : Byte) : (ext8 e n8).toNat =
    if e = .zero ∨ n8.toNat < 0x80 then n8.toNat else n8.toNat + 0xFFFFFF00 := by
  have hzero : (n8.setWidth 32).toNat = n8.toNat := BitVec.toNat_setWidth_of_le (by decide)
  cases e with
  | zero => rw [if_pos (.inl rfl), ext8, hzero]
  | sign =>
    have hmsb : n8.msb = true ↔ ¬ n8.toNat < 0x80 := by simp [BitVec.msb_eq_decide]
    rw [ext8, BitVec.toNat_signExtend, hzero]
    by_cases h : n8.toNat < 0x80
    · rw [if_neg (mt hmsb.1 (not_not.2 h)), if_pos (.inr h), Nat.add_zero]
    · rw [if_pos (hmsb.2 h), if_neg (by simpa using h)]

/-! ### The obligations -/

/-- Settles O16: decoder and meaning make the same check, and the sources are read before the write. -/
theorem addWritesTheSumModulo2Pow32 : Obligations.AddWritesTheSumModulo2Pow32 := by
  refine ⟨fun c d s t => ?_, exec_add_name, fun st d s t e he => ⟨?_, ?_⟩⟩
  · rw [decode_wordOf_add, firstBadRegister_names, Option.elim_none]
  · rw [decode_wordOf_add, he, Option.elim_some]
  · exact exec_of_firstBadRegister (i := .add d s t) st he

/-- Settles O17: as ADD, with the widened number for the second source, and no check of the number. -/
theorem addiWritesTheSumWithTheWidenedNumber : Obligations.AddiWritesTheSumWithTheWidenedNumber := by
  refine ⟨fun c d s n8 => ?_, fun st d s n8 => ?_, fun st d s n8 e he => ⟨?_, ?_⟩⟩
  · rw [decode_wordOf_addi, firstBadRegister_two_names, Option.elim_none]
  · rw [exec_addi_name, add32, ext8_toNat]
    rfl
  · rw [decode_wordOf_addi, he, Option.elim_some]
  · exact exec_of_firstBadRegister (i := .addi d s n8) st he

end Sys2Proof.Machine


/-! Runs in normal mode to their end: O44. -/

namespace Sys2Proof.Machine

/-! ### Running on without the host, and stopping -/

/-- A running machine that neither the mode nor a move of the host to come will halt. -/
def State.runsFreely (s : State) : Prop := s.run = .running ∧ s.mode = .normal ∧ s.turns = []

/-- A machine whose run is over of itself: at the end of its program (R234) or in an error (R199). -/
def State.stopped (s : State) : Prop := s.run = .waiting ∨ ∃ e, s.run = .error e

theorem State.runsFreely.atMachineStep {s : State} : s.runsFreely → s.atMachineStep :=
  fun ⟨hrun, _, hturns⟩ => atMachineStep_of_turns_nil hrun hturns

/-- Each step of a run in normal mode ends the run, or executes an instruction of the program and goes on to the next
one: there is no jump (R172). -/
theorem stopped_or_next_of_step {s t : State} (h : s.runsFreely) (hstep : step s = .next t) :
    t.stopped ∨ (t.runsFreely ∧ t.prog = s.prog ∧ t.pc = s.pc + 4) := by
  obtain ⟨-, hmode, hturns⟩ := h
  cases move_of_step hstep with
  | host m hm => simp [State.hostTurn, hturns] at hm
  | ended _ _ => exact .inl (.inl rfl)
  | raised _ _ c _ _ => exact .inl (.inr ⟨c, rfl⟩)
  | completed _ _ t' _ he hrun =>
    have hmode' : t'.mode = .normal := he.mode_eq.trans hmode
    have hturns' : t'.turns = [] := by rw [he.turns_eq, endTurn_turns, hturns, List.tail_nil]
    rw [pauseIfSingleStep_eq, if_neg (by simp [hmode'])]
    exact .inr ⟨⟨hrun, hmode', hturns'⟩, he.prog_eq, he.pc_of_running hrun⟩

/-- A run in normal mode with `n` instructions left stops within `n + 1` steps. -/
theorem exists_steps_stopped {n : Nat} {s : State} (h : s.runsFreely) (hpc : s.pc + 4 * n = 4 * s.prog.length) :
    ∃ (k : Nat) (t : State), k ≤ n + 1 ∧ steps k s = .next t ∧ t.stopped := by
  induction n generalizing s with
  | zero => exact ⟨1, _, le_rfl, steps_succ_of_step (step_of_atEnd h.atMachineStep hpc) 0, .inl rfl⟩
  | succ n ih =>
    obtain ⟨u, hstep⟩ := exists_step_next h.atMachineStep (by omega)
    obtain hstop | ⟨hu, hprog, hupc⟩ := stopped_or_next_of_step h hstep
    · exact ⟨1, u, by omega, steps_succ_of_step hstep 0, hstop⟩
    · obtain ⟨k, t, hk, hsteps, hstop⟩ := ih hu (by rw [hprog, hupc]; omega)
      exact ⟨k + 1, t, by omega, (steps_succ_of_step hstep k).trans hsteps, hstop⟩

/-! ### The obligation -/

/-- Settles O44: the invariant makes `pc` the offset of an instruction or of the end of the program, and the run is by
induction on the instructions left. -/
theorem everyNormalRunEndsWithinItsLength : Obligations.EveryNormalRunEndsWithinItsLength := by
  intro s hinv hrun hmode hturns
  obtain ⟨-, hmul, hpc, -⟩ := (inv_iff s).1 hinv
  exact exists_steps_stopped ⟨hrun, hmode, hturns⟩ (by omega)

end Sys2Proof.Machine


/-! Errors: their entry, their order, and the accesses that only raise: O20, O32, O33. -/

namespace Sys2Proof.Machine

/-! ### Steps that take an error, and steps that take none -/

section MachineStep

variable {s t u : State} {w : Word} {i : Instr} {e : ErrorCause}

theorem run_of_step_of_decode_error (h : s.atMachineStep) (hf : s.fetch = some w) (hd : decode s.config w = .error e)
    (hstep : step s = .next t) : t.run = .error e := by
  rw [step_of_decode_error h hf hd] at hstep
  cases hstep
  rfl

theorem run_of_step_of_exec_raise (h : s.atMachineStep) (hf : s.fetch = some w) (hd : decode s.config w = .ok i)
    (hx : exec i s.endTurn = .next (s.endTurn.raise e)) (hstep : step s = .next t) : t.run = .error e := by
  rw [step_of_decode_ok h hf hd hx, pauseIfSingleStep_raise] at hstep
  cases hstep
  rfl

/-- An instruction that keeps the run state leaves a machine that goes on or pauses. -/
theorem noError_of_step (h : s.atMachineStep) (hf : s.fetch = some w) (hd : decode s.config w = .ok i)
    (hx : exec i s.endTurn = .next u) (hrun : u.run = s.run) (hstep : step s = .next t) : t.noError = true := by
  rw [step_of_decode_ok h hf hd hx] at hstep
  cases hstep
  rw [noError_iff]
  obtain hr | hr := pauseIfSingleStep_run_of_running (hrun.trans h.1) <;> simp [hr]

end MachineStep

/-! ### Instructions whose checks pass keep the run state -/

theorem exec_add_of_firstBadRegister_eq_none {d a b : RegByte} (s : State)
    (h : firstBadRegister [(.first, d), (.second, a), (.third, b)] = none) :
    ∃ u, exec (.add d a b) s = .next u ∧ u.run = s.run := by
  obtain ⟨⟨rd, ra, rb⟩, hregs⟩ := (regs3_ok_iff d a b).2 h
  obtain ⟨rfl, rfl, rfl⟩ := regs3_ok hregs
  exact ⟨_, exec_add_name s rd ra rb, rfl⟩

theorem exec_addi_of_firstBadRegister_eq_none {d a : RegByte} (n8 : Byte) (s : State)
    (h : firstBadRegister [(.first, d), (.second, a)] = none) :
    ∃ u, exec (.addi d a n8) s = .next u ∧ u.run = s.run := by
  obtain ⟨⟨rd, ra⟩, hregs⟩ := (regs2_ok_iff d a).2 h
  obtain ⟨rfl, rfl⟩ := regs2_ok hregs
  exact ⟨_, exec_addi_name s rd ra n8, rfl⟩

theorem exec_of_accessible {i : Instr} {s : State} {r b x : GReg}
    (hi : i = .loadm r.name b.name x.name ∨ i = .storem r.name b.name x.name)
    (ha : accessError s.config.memSize (s.ea b x) = none) : ∃ u, exec i s = .next u ∧ u.run = s.run := by
  obtain rfl | rfl := hi
  · exact ⟨_, exec_loadm_of_accessible r ha, rfl⟩
  · exact ⟨_, exec_storem_of_accessible r ha, rfl⟩

/-- A word with an open opcode and good register bytes is a LOADM or a STOREM. -/
theorem exists_decode_of_open_opcode {c : Config} (hc : c.wf = true) {b1 : Byte}
    (hb1 : b1 = c.opcLoadm ∨ b1 = c.opcStorem) (r b x : GReg) :
    ∃ i, (i = .loadm r.name b.name x.name ∨ i = .storem r.name b.name x.name) ∧
      decode c (wordOf b1 r.name b.name x.name) = .ok i := by
  obtain rfl | rfl := hb1
  · exact ⟨_, .inl rfl, encode_loadm c .. ▸
      decode_encode_of_firstBadRegister_eq_none hc (firstBadRegister_names r b x)⟩
  · exact ⟨_, .inr rfl, encode_storem c .. ▸
      decode_encode_of_firstBadRegister_eq_none hc (firstBadRegister_names r b x)⟩

/-! ### The obligations -/

/-- Settles O20: the access checks are made on the full sum, alignment first, and LOADM and STOREM take the error that
they give. -/
theorem misalignedOrOutsideAccessOnlyRaises : Obligations.MisalignedOrOutsideAccessOnlyRaises := by
  rintro s r b x i _ hi rfl
  exact ⟨fun h => exec_of_accessError hi (accessError_of_misaligned _ h),
    fun halign hout => exec_of_accessError hi (accessError_of_outside halign hout)⟩

/-- Settles O32: the one move that ends in an error is the error entry, and from an error only the host moves. -/
theorem errorEntryChangesOnlyTheRunState : Obligations.ErrorEntryChangesOnlyTheRunState := by
  refine ⟨fun s t e _ h he => ?_, fun s e hr hturn => step_of_stopFault hturn (by rw [hr]; rfl), fun s t e hr h => ?_⟩
  · cases move_of_step h with
    | host _ _ | ended _ _ | raised _ _ _ _ _ => simp
    | completed _ i t' _ _ hrun =>
      obtain hr | hr := pauseIfSingleStep_run_of_running hrun <;> simp [hr] at he
  · cases move_of_step h with
    | host m hm =>
      cases m with
      | signal => exact .inl (by simp [hostMove_signal_run, hr])
      | switchOff => exact .inr ⟨rfl, hm⟩
    | ended hs _ => simp [hs.1] at hr
    | raised hs w c _ _ => simp [hs.1] at hr
    | completed hs i t' _ _ _ => simp [hs.1] at hr

/-- Settles O33: the decoder's case table orders the opcode before the register bytes, and only a word that passes both
is executed, where LOADM and STOREM make the access checks in their order. -/
theorem errorPriority : Obligations.ErrorPriority := by
  intro s b1 b2 b3 b4 hc hs hf
  obtain ⟨t, ht⟩ := exists_step_next hs (pc_lt_of_fetch hf).le
  obtain ⟨hnop, hadd, haddi, hloadm, hstorem, hillegal⟩ := decoderIsTheCaseTableOfTheSpec s.config b1 b2 b3 b4 hc
  refine ⟨t, ht, fun h0 h40 h41 hl hst => ?_, fun e hb1 he => ?_, fun e hb1 he => ?_, ?_, fun hb1 => ?_,
    fun hb1 hgood => ?_, fun hb1 hgood => ?_⟩
  · exact run_of_step_of_decode_error hs hf (hillegal h0 h40 h41 hl hst) ht
  · refine run_of_step_of_decode_error hs hf ?_ ht
    obtain hb1 | hb1 | hb1 := hb1
    · rw [hadd hb1, he]
    · rw [hloadm hb1, he]
    · rw [hstorem hb1, he]
  · exact run_of_step_of_decode_error hs hf (by rw [haddi hb1, he]) ht
  · rintro r b x _ hb1 rfl rfl rfl rfl
    obtain ⟨i, hi, hd⟩ := exists_decode_of_open_opcode hc hb1 r b x
    refine ⟨fun h => ?_, fun halign hout => ?_, fun halign hin => ?_⟩
    · exact run_of_step_of_exec_raise hs hf hd (exec_of_accessError hi (accessError_of_misaligned _ h)) ht
    · exact run_of_step_of_exec_raise hs hf hd (exec_of_accessError hi (accessError_of_outside halign hout)) ht
    · obtain ⟨u, hx, hrun⟩ :=
        exec_of_accessible (s := s.endTurn) hi ((Memory.accessError_eq_none_iff _ _).2 ⟨halign, hin⟩)
      exact noError_of_step hs hf hd hx hrun ht
  · exact noError_of_step hs hf (hnop hb1) (exec_nop s.endTurn) rfl ht
  · obtain ⟨u, hx, hrun⟩ := exec_add_of_firstBadRegister_eq_none s.endTurn hgood
    exact noError_of_step hs hf (by rw [hadd hb1, hgood]) hx hrun ht
  · obtain ⟨u, hx, hrun⟩ := exec_addi_of_firstBadRegister_eq_none b4 s.endTurn hgood
    exact noError_of_step hs hf (by rw [haddi hb1, hgood]) hx hrun ht

end Sys2Proof.Machine


/-! The single-step run beside the normal one: O37. -/

namespace Sys2Proof.Machine

/-! ### The machine in single-step mode with other moves to come -/

/-- The machine in single-step mode (R204) with `turns` to come. -/
def State.singleStepped (turns : List Turn) (s : State) : State := { s with mode := .singleStep, turns := turns }

theorem singleStepped_nil {s : State} (h : s.turns = []) : s.singleStepped [] = { s with mode := .singleStep } := by
  rw [State.singleStepped, h]

/-- No meaning reads the mode or the moves to come. -/
theorem exec_singleStepped {i : Instr} {s t : State} (turns : List Turn) (h : exec i s = .next t) :
    exec i (s.singleStepped turns) = .next (t.singleStepped turns) := by
  have hf : ∀ c (u : State), (u.raise c).singleStepped turns = (u.singleStepped turns).raise c := fun _ _ => rfl
  cases i with
  | nop => cases h; rfl
  | add _ _ _ | addi _ _ _ => exact withChecked_map hf (fun _ _ hu => by cases hu; rfl) h
  | loadm _ _ _ | storem _ _ _ =>
    exact withChecked_map hf (fun _ _ hu => withChecked_map hf (fun _ _ hv => by cases hv; rfl) hu) h

/-! ### One step of either run -/

theorem turns_of_step {s t : State} (h : step s = .next t) : t.turns = s.turns.tail := by
  cases move_of_step h with
  | host _ _ | ended _ _ | raised _ _ _ _ _ => simp
  | completed _ i t' _ he _ => simp [he.turns_eq]

/-- On its own turn only a running machine has a step. -/
theorem running_of_step {s t : State} (hturn : s.hostTurn = none) (h : step s = .next t) : s.run = .running := by
  by_contra hrun
  obtain ⟨f, hf⟩ := exists_stopFault hrun
  simp [step_of_stopFault hturn hf] at h

/-- The machine's step in single-step mode is its step in normal mode with the pause after it. -/
theorem step_singleStepped {s t : State} (h : s.runsFreely) (hstep : step s = .next t) (turns : List Turn) :
    step (s.singleStepped (.machine :: turns)) = .next (t.singleStepped turns).pauseIfSingleStep := by
  obtain ⟨hrun, hmode, hturns⟩ := h
  have hs : (s.singleStepped (.machine :: turns)).atMachineStep := ⟨hrun, rfl⟩
  rw [step_of_machineTurn (atMachineStep_of_turns_nil hrun hturns).2, endTurn_of_turns_nil hturns] at hstep
  obtain ⟨-, ⟨hpc, rfl⟩ | ⟨w, c, hf, hd, rfl⟩ | ⟨w, i, u, hf, hd, hx, rfl⟩⟩ := machineStep_next hstep
  · exact step_of_atEnd hs hpc
  · exact step_of_decode_error hs hf hd
  · have hu : u.mode = .normal := (exec_next hx).mode_eq.trans hmode
    have hx' := exec_singleStepped turns hx
    rw [pauseIfSingleStep_eq u, if_neg (by simp [hu])]
    exact step_of_decode_ok hs hf hd hx'

theorem hostMove_signal_of_run_ne_paused {s : State} (h : s.run ≠ .paused) : s.hostMove .signal = s := by
  unfold State.hostMove
  dsimp only
  split
  · next hpaused => exact absurd hpaused h
  · rfl

/-- The signal undoes the pause, and does nothing where the machine did not pause. -/
theorem hostMove_signal_pauseIfSingleStep {s : State} (h : s.run ≠ .paused) :
    s.pauseIfSingleStep.hostMove .signal = s := by
  rw [pauseIfSingleStep_eq]
  split
  · next hpause =>
    obtain ⟨hrun, -⟩ := hpause
    simp only [State.hostMove, ← hrun]
  · exact hostMove_signal_of_run_ne_paused h

/-- The pause and the turn taken do not touch the same field. -/
theorem endTurn_pauseIfSingleStep (s : State) : s.pauseIfSingleStep.endTurn = s.endTurn.pauseIfSingleStep := by
  rw [pauseIfSingleStep_eq, pauseIfSingleStep_eq, endTurn_run, endTurn_mode]
  split <;> rfl

/-- Once the signal has answered it, the machine's step in single-step mode is its step in normal mode. -/
theorem steps_singleStepped_signal {s t : State} (h : s.runsFreely) (hstep : step s = .next t) (turns : List Turn)
    (k : Nat) : steps (k + 2) (s.singleStepped (.machine :: .host .signal :: turns)) =
      steps k (t.singleStepped turns) := by
  have hrun : t.run ≠ .paused := by
    obtain (hr | ⟨e, hr⟩) | ⟨⟨hr, -⟩, -⟩ := stopped_or_next_of_step h hstep <;> simp [hr]
  have hsignal : step (t.singleStepped (.host .signal :: turns)).pauseIfSingleStep =
      .next (t.singleStepped turns) := by
    rw [step_of_hostTurn (m := .signal) (by simp [State.hostTurn, State.singleStepped]), endTurn_pauseIfSingleStep]
    exact congrArg _ (hostMove_signal_pauseIfSingleStep hrun)
  rw [steps_succ_of_step (step_singleStepped h hstep _), steps_succ_of_step hsignal]

/-! ### Runs -/

theorem exists_step_of_steps_succ {k : Nat} {s t : State} (h : steps (k + 1) s = .next t) :
    ∃ u, step s = .next u ∧ steps k u = .next t := by
  cases hstep : step s with
  | next u => exact ⟨u, rfl, by rwa [steps_succ_of_step hstep] at h⟩
  | fault f => simp [steps, hstep] at h
  | refused r => simp [steps, hstep] at h

/-- The single-step run spends two moves on each step of the normal run: the machine's step and the host's signal. -/
theorem steps_singleStepped_signalled {k : Nat} {s t : State} (hmode : s.mode = .normal) (hturns : s.turns = [])
    (h : steps k s = .next t) :
    steps (2 * k) (s.singleStepped (signalled k)) = .next { t with mode := .singleStep } := by
  induction k generalizing s with
  | zero =>
    cases h
    exact congrArg _ (singleStepped_nil hturns)
  | succ k ih =>
    obtain ⟨u, hstep, hrest⟩ := exists_step_of_steps_succ h
    have hfree : s.runsFreely := ⟨running_of_step (by simp [State.hostTurn, hturns]) hstep, hmode, hturns⟩
    obtain ⟨-, hmode_eq, -⟩ := programModeAndParametersNeverChange s u hstep
    have hturns_eq : u.turns = [] := by rw [turns_of_step hstep, hturns, List.tail_nil]
    exact (steps_singleStepped_signal hfree hstep (signalled k) (2 * k)).trans
      (ih (hmode_eq.trans hmode) hturns_eq hrest)

/-! ### The obligation -/

/-- Settles O37: the two runs are matched step by step, by induction on the steps of the normal one. -/
theorem singleStepRunMatchesNormalRun : Obligations.SingleStepRunMatchesNormalRun :=
  fun _ _ _ hmode _ hturns h => steps_singleStepped_signalled hmode hturns h

end Sys2Proof.Machine


/-! Reset, the compiled file and the ends of a run: O11, O14, O34, O35. -/

namespace Sys2Proof.Machine

/-! ### The program in a compiled file (R233) -/

theorem programOfImage_cons (a b c d : Byte) (rest : List Byte) :
    programOfImage (a :: b :: c :: d :: rest) = (programOfImage rest).map (ofBytes a b c d :: ·) := by
  rw [programOfImage]
  cases programOfImage rest <;> rfl

/-- Only the length decides whether a file is a program. -/
theorem isSome_programOfImage : ∀ image : List Byte, (programOfImage image).isSome = decide (image.length % 4 = 0)
  | [] | [_] | [_, _] | [_, _, _] => rfl
  | a :: b :: c :: d :: rest => by
    rw [programOfImage_cons, Option.isSome_map, isSome_programOfImage rest, decide_eq_decide]
    simp only [List.length_cons]
    omega

theorem eq_nil_of_programOfImage {image : List Byte} (h : programOfImage image = some []) : image = [] := by
  match image, h with
  | [], _ => rfl
  | a :: b :: c :: d :: rest, h => simp [programOfImage_cons] at h

theorem eq_cons_of_programOfImage {image : List Byte} {w : Word} {p : List Word}
    (h : programOfImage image = some (w :: p)) :
    ∃ a b c d rest, image = a :: b :: c :: d :: rest ∧ w = ofBytes a b c d ∧ programOfImage rest = some p := by
  match image, h with
  | a :: b :: c :: d :: rest, h =>
    rw [programOfImage_cons, Option.map_eq_some_iff] at h
    obtain ⟨q, hq, hcons⟩ := h
    cases hcons
    exact ⟨a, b, c, d, rest, rfl, rfl, hq⟩

theorem length_of_programOfImage {image : List Byte} {p : List Word} (h : programOfImage image = some p) :
    4 * p.length = image.length := by
  induction p generalizing image with
  | nil => rw [eq_nil_of_programOfImage h]; rfl
  | cons w p ih =>
    obtain ⟨a, b, c, d, rest, rfl, -, hrest⟩ := eq_cons_of_programOfImage h
    have := ih hrest
    simp only [List.length_cons]
    omega

/-- Word `k` is made of the bytes from `4 * k` on, the first most significant. -/
theorem getElem?_of_programOfImage {image : List Byte} {p : List Word} {k : Nat}
    (h : programOfImage image = some p) (hk : k < p.length) :
    ∃ b1 b2 b3 b4, image[4 * k]? = some b1 ∧ image[4 * k + 1]? = some b2 ∧ image[4 * k + 2]? = some b3 ∧
      image[4 * k + 3]? = some b4 ∧ p[k]? = some (wordOf b1 b2 b3 b4) := by
  induction p generalizing image k with
  | nil => exact absurd hk (Nat.not_lt_zero k)
  | cons w p ih =>
    obtain ⟨a, b, c, d, rest, rfl, rfl, hrest⟩ := eq_cons_of_programOfImage h
    cases k with
    | zero => exact ⟨a, b, c, d, rfl, rfl, rfl, rfl, congrArg some (wordOf_eq_ofBytes a b c d).symm⟩
    | succ k => exact ih hrest (Nat.lt_of_succ_lt_succ hk)

/-! ### Power-up with a compiled file (R233, R235) -/

theorem boot_of_programOfImage {image : List Byte} {p : List Word} (h : programOfImage image = some p) (c : Config)
    (m : Memory) (md : Mode) (ts : List Turn) : boot image c m md ts =
      some (State.powerUp { config := c, prog := p, memInit := m, mode := md, turns := ts }) := by
  simp [boot, h]

theorem boot_of_programOfImage_eq_none {image : List Byte} (h : programOfImage image = none) (c : Config)
    (m : Memory) (md : Mode) (ts : List Turn) : boot image c m md ts = none := by
  simp [boot, h]

/-- A machine launched with the empty program is at its end at once. -/
theorem step_powerUp_of_prog_nil {l : Launch} (hprog : l.prog = []) (hturns : l.turns = []) :
    step (State.powerUp l) = .next (State.powerUp l).endTurn.endRun :=
  step_of_atEnd (atMachineStep_of_turns_nil rfl hturns) (by simp [hprog])

/-! ### Moves of the host, and terminal states (R204, R205, R234) -/

theorem hostMove_eq (s : State) (m : HostMove) : s.hostMove m = { s with run := (s.hostMove m).run } := by
  cases m with
  | signal => unfold State.hostMove; dsimp only; split <;> rfl
  | switchOff => rfl

theorem terminal_iff (s : State) :
    s.terminal = true ↔ s.run = .waiting ∨ s.run = .off ∨ ∃ e, s.run = .error e := by
  unfold State.terminal
  cases s.run <;> simp

theorem not_terminal_of_running {s : State} (h : s.run = .running) : ¬ s.terminal = true := by
  simp [State.terminal, h]

theorem run_ne_paused_of_terminal {s : State} (h : s.terminal = true) : s.run ≠ .paused := by
  intro hp
  simp [State.terminal, hp] at h

/-- A machine in a terminal state has no step of its own. -/
theorem hostTurn_of_terminal {s t : State} (hs : s.terminal = true) (h : step s = .next t) :
    ∃ m, s.hostTurn = some m := by
  cases hturn : s.hostTurn with
  | some m => exact ⟨m, rfl⟩
  | none => exact absurd hs (not_terminal_of_running (running_of_step hturn h))

/-- From a terminal state the machine can only be switched off: the signal uses up its turn. -/
theorem step_of_terminal {s t : State} (hs : s.terminal = true) (h : step s = .next t) :
    t = s.endTurn ∨ t = s.endTurn.hostMove .switchOff := by
  obtain ⟨m, hm⟩ := hostTurn_of_terminal hs h
  rw [step_of_hostTurn hm] at h
  cases h
  cases m with
  | signal => exact .inl (hostMove_signal_of_run_ne_paused (s := s.endTurn) (run_ne_paused_of_terminal hs))
  | switchOff => exact .inr rfl

/-! ### The obligations -/

/-- Settles O14: the length alone decides, the words are read off by induction on the program, and the empty program is
at its end at once. -/
theorem programImageIsReadFourBytesAtATime : Obligations.ProgramImageIsReadFourBytesAtATime := by
  refine ⟨fun image hlen => ?_, fun image hlen => ?_, fun c m md => ?_⟩
  · have hnone : programOfImage image = none := by
      rw [← Option.not_isSome_iff_eq_none, isSome_programOfImage, decide_eq_true_iff]
      exact hlen
    exact ⟨hnone, boot_of_programOfImage_eq_none hnone⟩
  · obtain ⟨p, hp⟩ := Option.isSome_iff_exists.1 ((isSome_programOfImage image).trans (decide_eq_true hlen))
    exact ⟨p, hp, length_of_programOfImage hp, fun k hk => getElem?_of_programOfImage hp hk,
      fun c m md ts => ⟨_, boot_of_programOfImage hp c m md ts, rfl, rfl, rfl, x_powerUp _, rfl, rfl, rfl, rfl⟩⟩
  · exact ⟨_, _, boot_of_programOfImage rfl c m md [], step_powerUp_of_prog_nil rfl rfl, rfl, rfl, by simp⟩

/-- Settles O34: a running machine at `pc = 4 * L` ends its run, and a terminal one has only the moves of the host. -/
theorem runEndsInWaitingAndKeepsItsState : Obligations.RunEndsInWaitingAndKeepsItsState := by
  refine ⟨fun s hs hpc => step_of_atEnd hs hpc, fun s => by simp [State.final], terminal_iff, fun s t hs h => ?_⟩
  obtain rfl | rfl := step_of_terminal hs h
  · exact ⟨rfl, rfl, rfl, hs, .inl ⟨rfl, rfl⟩⟩
  · exact ⟨rfl, rfl, rfl, rfl, .inr rfl⟩

/-- Settles O11: every field is the launch's own or R231's value, and the standard launch is admissible. -/
theorem powerUpGivesTheStateOfTheSpec : Obligations.PowerUpGivesTheStateOfTheSpec :=
  ⟨x_powerUp, fun _ => ⟨rfl, rfl, rfl, rfl, rfl, rfl⟩, Launch.standard, by decide, rfl⟩

/-- Settles O35: the host's turn is one host move, which reaches only the run state. -/
theorem hostMovesChangeOnlyTheRunState : Obligations.HostMovesChangeOnlyTheRunState := by
  intro s m hm
  refine ⟨_, step_of_hostTurn hm, hostMove_eq s.endTurn m, ?_, ?_, ?_⟩
  · rintro rfl hp
    rw [hostMove_signal_run, endTurn_run, if_pos hp]
  · rintro rfl hp
    rw [hostMove_signal_run, endTurn_run, if_neg hp]
  · rintro rfl
    rfl

end Sys2Proof.Machine


/-! Decoder and encoder beside each other, and the words of the test vectors: O1, O2, O3. -/

namespace Sys2Proof

/-! ### Well-formed instructions (R22, R88) -/

/-- The check of R88 finds no bad byte exactly when every byte names a register. -/
theorem firstBadRegister_eq_none_iff (l : List (Position × RegByte)) :
    firstBadRegister l = none ↔ ∀ pb ∈ l, regByteOk pb.2 = true := by
  induction l with
  | nil => simp [firstBadRegister]
  | cons pb rest ih =>
    obtain ⟨p, b⟩ := pb
    rw [firstBadRegister_cons, List.forall_mem_cons]
    obtain ⟨rfl, hr⟩ | ⟨-, hb, hr⟩ | ⟨hb, r, hr, -⟩ := reg_cases p b
    · simp [hr, regByteOk]
    · simp [hr, regByteOk, hb]
    · simp [hr, hb, ih]

theorem firstBadRegister_registerBytes_eq_none_iff (i : Instr) :
    firstBadRegister i.registerBytes = none ↔ i.wf = true := by
  rw [firstBadRegister_eq_none_iff]
  cases i <;> simp [Instr.registerBytes, Instr.wf, and_assoc]

theorem decode_encode_of_wf {c : Config} {i : Instr} (hc : c.wf = true) (hi : i.wf = true) :
    decode c (encode c i) = .ok i :=
  Machine.decode_encode_of_firstBadRegister_eq_none hc ((firstBadRegister_registerBytes_eq_none_iff i).2 hi)

/-! ### Accepted words (R96, R100) -/

theorem wf_of_decode_ok {c : Config} {w : Word} {i : Instr} (h : decode c w = .ok i) : i.wf = true := by
  rw [← firstBadRegister_registerBytes_eq_none_iff]
  obtain ⟨-, rfl⟩ | ⟨-, rfl, hr⟩ | ⟨-, rfl, hr⟩ | ⟨-, rfl, hr⟩ | ⟨-, rfl, hr⟩ := decode_ok h
  · rfl
  · exact (regs3_ok_iff _ _ _).1 hr
  · exact (regs2_ok_iff _ _).1 hr
  · exact (regs3_ok_iff _ _ _).1 hr
  · exact (regs3_ok_iff _ _ _).1 hr

theorem encode_of_decode_ok {c : Config} {w : Word} {i : Instr} (h : decode c w = .ok i) :
    encode c i = w ∨ (i = .nop ∧ w.b1 = 0x00#8) := by
  obtain ⟨hb, rfl⟩ | ⟨hb, rfl, -⟩ | ⟨hb, rfl, -⟩ | ⟨hb, rfl, -⟩ | ⟨hb, rfl, -⟩ := decode_ok h
  · exact .inr ⟨rfl, hb⟩
  all_goals
    left
    rw [encode, Instr.opcode, ← hb, ofBytes_bytes]

theorem b1_eq_zero_iff (w : Word) : w.b1 = 0x00#8 ↔ w.toNat < 2 ^ 24 := by
  rw [← BitVec.toNat_inj, b1_toNat]
  simp [Nat.div_eq_zero_iff]

/-! ### The words of the test vectors (95_test_vectors.md) -/

/-- An open opcode before the bytes 1, 2, 3 of S1. -/
theorem ofNat_opcode_eq_wordOf (b : Byte) : BitVec.ofNat 32 (b.toNat * 0x1000000 + 0x010203) = wordOf b 1 2 3 := by
  rw [wordOf, Nat.add_assoc, Nat.add_assoc]
  rfl

theorem notMem_assignedOpcodes_of_wf {c : Config} (hc : c.wf = true) {b : Byte} (hb : b = 0x01#8 ∨ b = 0x12#8) :
    b ∉ c.assignedOpcodes := by
  obtain ⟨-, hfree, -⟩ := Machine.unassignedOpcodesAre251AndStopTheMachine c hc
  exact notMem_assignedOpcodes_iff.2 (hfree b hb)

/-! ### The obligations -/

/-- Settles O1: the equation of the opcode leaves a check of literal bytes, and the words with an open opcode are those
of LOADM and STOREM. -/
theorem specWordsDecodeAsListed : Obligations.SpecWordsDecodeAsListed := by
  intro c hc
  refine ⟨decode_of_nop rfl, decode_of_nop rfl, decode_of_add rfl, decode_of_add rfl, decode_of_addi rfl,
    decode_of_addi rfl, ?_, ?_, decode_of_add rfl, decode_of_add rfl, decode_of_add rfl, ?_, ?_⟩
  · rw [ofNat_opcode_eq_wordOf, ← Machine.encode_loadm]
    exact decode_encode_of_wf hc rfl
  · rw [ofNat_opcode_eq_wordOf, ← Machine.encode_storem]
    exact decode_encode_of_wf hc rfl
  · exact decode_of_notMem_assignedOpcodes (notMem_assignedOpcodes_of_wf hc (.inl rfl))
  · exact decode_of_notMem_assignedOpcodes (notMem_assignedOpcodes_of_wf hc (.inr rfl))

/-- Settles O2: the check of the register bytes is the only one between encoding and decoding. -/
theorem decodeOfEncodeIsTheInstruction : Obligations.DecodeOfEncodeIsTheInstruction :=
  fun _ _ hc hi => decode_encode_of_wf hc hi

/-- Settles O3: each clause of the decoder keeps the four bytes, but for NOP, which keeps the first alone. -/
theorem acceptedWordsReencodeToThemselves : Obligations.AcceptedWordsReencodeToThemselves :=
  fun _ w _ _ h => ⟨wf_of_decode_ok h, (encode_of_decode_ok h).imp_right fun ⟨hi, hb⟩ => ⟨hi, (b1_eq_zero_iff w).1 hb⟩⟩

end Sys2Proof


/-! The machine invariant, and the mode's part in a step: O12, O36, O39. -/

namespace Sys2Proof.Machine

/-! ### Instructions keep memory within its bounds and raise what R190 allows -/

theorem Effect.mem_cases {i : Instr} {s t : State} (h : Effect i s t) :
    t.mem = s.mem ∨ ∃ r b x : GReg, i = .storem r.name b.name x.name ∧
      accessError s.config.memSize (s.ea b x) = none ∧ t.mem = s.mem.writeWord (s.ea b x) (s.x r) := by
  cases h with
  | raised c _ => exact .inl rfl
  | advanced _ => exact .inl rfl
  | wrote r v _ => exact .inl rfl
  | stored r b x hi ha => exact .inr ⟨r, b, x, hi, ha, rfl⟩

theorem Effect.wf_mem {i : Instr} {s t : State} (h : Effect i s t) (hwf : s.mem.wf = true) : t.mem.wf = true := by
  obtain hm | ⟨r, b, x, -, -, hm⟩ := h.mem_cases
  · rw [hm, hwf]
  · rw [hm, Memory.wf_writeWord _ _ hwf]

/-- A store passes the bounds check of R59, so that no byte outside memory appears (R51). -/
theorem Effect.below_mem {i : Instr} {s t : State} (h : Effect i s t) (hb : s.mem.below s.config.memSize = true) :
    t.mem.below s.config.memSize = true := by
  obtain hm | ⟨r, b, x, -, ha, hm⟩ := h.mem_cases
  · rw [hm, hb]
  · obtain ⟨-, hrange⟩ := (Memory.accessError_eq_none_iff _ _).1 ha
    rw [hm, Memory.below_writeWord _ hb hrange]

theorem Effect.genuine_of_error {i : Instr} {s t : State} (h : Effect i s t) (hs : s.run = .running) {e : ErrorCause}
    (he : t.run = .error e) : genuine s.config e = true := by
  cases h with
  | raised c hc => cases he; exact hc
  | advanced _ => simp [hs] at he
  | wrote r v _ => simp [hs] at he
  | stored r b x _ _ => simp [hs] at he

/-! ### The run state fits the rest (R32, R199, R234) -/

theorem runOk_of_running {s : State} (h : s.run = .running) : s.runOk = true := by
  simp [State.runOk, h]

theorem runOk_endRun {s : State} (hpc : s.pc = 4 * s.prog.length) : s.endRun.runOk = true := by
  simp [State.runOk, hpc]

theorem runOk_raise {s : State} {c : ErrorCause} (hpc : s.pc < 4 * s.prog.length) (hc : genuine s.config c = true) :
    (s.raise c).runOk = true := by
  simp [State.runOk, hpc, hc]

theorem runOk_pauseIfSingleStep {s : State} (h : s.run = .running) : s.pauseIfSingleStep.runOk = true := by
  rw [pauseIfSingleStep_of_running h]
  by_cases hm : s.mode = .singleStep <;> simp [State.runOk, hm]

theorem runOk_hostMove {s : State} (m : HostMove) (h : s.runOk = true) : (s.hostMove m).runOk = true := by
  cases m with
  | switchOff => rfl
  | signal =>
    by_cases hp : s.run = .paused
    · exact runOk_of_running (by rw [hostMove_signal_run, if_pos hp])
    · rwa [hostMove_signal_of_run_ne_paused hp]

/-! ### The obligations -/

/-- Settles O39: the program counter, memory and the run state are each followed through the four moves. -/
theorem stepKeepsTheInvariant : Obligations.StepKeepsTheInvariant := by
  intro s t hinv h
  obtain ⟨hcfg, hmul, hpc, hwf, hbelow, hrunOk⟩ := (inv_iff s).1 hinv
  rw [inv_iff]
  cases move_of_step h with
  | host m _ => simp [hcfg, hmul, hpc, hwf, hbelow, runOk_hostMove (s := s.endTurn) m hrunOk]
  | ended _ hend => simp [hcfg, hmul, hpc, hwf, hbelow, runOk_endRun (s := s.endTurn) hend]
  | raised hs w c hf hc =>
    have hgen : genuine s.config c = true := by
      obtain hd | ⟨i, -, hx⟩ := hc
      · exact decode_error_genuine hd
      · exact (exec_next hx).genuine_of_error (s := s.endTurn) hs.1 rfl
    simp [hcfg, hmul, hpc, hwf, hbelow, runOk_raise (s := s.endTurn) (pc_lt_of_fetch hf) hgen]
  | completed _ i t' hi he hrun =>
    obtain ⟨w, hf, -⟩ := fetch_of_nextInstr hi
    have hlt : s.pc < 4 * s.prog.length := pc_lt_of_fetch hf
    have hadv : t'.pc = s.pc + 4 := he.pc_of_running hrun
    have hconfig : t'.config = s.config := he.config_eq
    have hprog : t'.prog = s.prog := he.prog_eq
    have hbelow' : t'.mem.below s.config.memSize = true := he.below_mem hbelow
    simp only [pauseIfSingleStep_config, pauseIfSingleStep_pc, pauseIfSingleStep_prog, pauseIfSingleStep_mem,
      hconfig, hprog, hadv]
    exact ⟨hcfg, by omega, by omega, he.wf_mem hwf, hbelow', runOk_pauseIfSingleStep hrun⟩

/-- Settles O12: a machine that has just been launched is running at `pc` 0, and the standard launch is admissible. -/
theorem invariantHoldsAtReset : Obligations.InvariantHoldsAtReset := by
  have hpower (l : Launch) (hl : l.ok = true) : (State.powerUp l).inv = true := by
    simp only [Launch.ok, Bool.and_eq_true] at hl
    obtain ⟨⟨hcfg, hwf⟩, hbelow⟩ := hl
    exact (inv_iff _).2 ⟨hcfg, rfl, Nat.zero_le _, hwf, hbelow, rfl⟩
  exact ⟨hpower Launch.standard (by decide), hpower⟩

/-- Settles O36: only the end of the run waits, and of the other moves of a running machine one takes an error and one
ends with the pause of single-step mode. -/
theorem modeDecidesWhetherTheMachinePauses : Obligations.ModeDecidesWhetherTheMachinePauses := by
  intro s t hs h
  cases move_of_step h with
  | host m hm => exact absurd hs (not_atMachineStep_of_hostTurn hm)
  | ended _ hpc => simp [hpc]
  | raised _ w c hf _ => simp [(pc_lt_of_fetch hf).ne]
  | completed _ i t' hi he hrun =>
    obtain ⟨w, hf, -⟩ := fetch_of_nextInstr hi
    have hmode : t'.mode = s.mode := he.mode_eq
    rw [pauseIfSingleStep_of_running hrun, hmode]
    cases hm : s.mode <;> simp [(pc_lt_of_fetch hf).ne]

end Sys2Proof.Machine


/-! The assembler: O9, O10. -/

namespace Sys2Proof.Machine

/-! ### Operands of a line (R86, R98) -/

theorem toNat_ofNat_byte {n : Nat} (h : n < 256) : (BitVec.ofNat 8 n).toNat = n := by
  rw [BitVec.toNat_ofNat, Nat.mod_eq_of_lt h]

theorem regByteOk_ofNat {n : Nat} (h : 1 ≤ n ∧ n ≤ 32) :
    regByteOk (BitVec.ofNat 8 n) = true ∧ (BitVec.ofNat 8 n).toNat = n := by
  have hn : (BitVec.ofNat 8 n).toNat = n := toNat_ofNat_byte (by omega)
  exact ⟨by simpa [regByteOk, hn] using h, hn⟩

/-- The register numbers that are accepted are those of well-formed register bytes. -/
theorem asmRegisters_eq_ok_iff {ns : List Nat} {bs : List RegByte} :
    asmRegisters ns = .ok bs ↔ (∀ b ∈ bs, regByteOk b = true) ∧ ns = bs.map BitVec.toNat := by
  constructor
  · intro h
    induction ns generalizing bs with
    | nil => cases h; simp
    | cons n ns ih =>
      unfold asmRegisters at h
      split_ifs at h with hn
      split at h
      · next bs' hbs =>
        cases h
        obtain ⟨hok, hmap⟩ := ih hbs
        obtain ⟨hb, hbn⟩ := regByteOk_ofNat hn
        exact ⟨List.forall_mem_cons.2 ⟨hb, hok⟩, by rw [List.map_cons, hbn, ← hmap]⟩
      · cases h
  · rintro ⟨hok, rfl⟩
    induction bs with
    | nil => rfl
    | cons b bs ih =>
      obtain ⟨hb, hrest⟩ := List.forall_mem_cons.1 hok
      have hrange : 1 ≤ b.toNat ∧ b.toNat ≤ 32 := by simpa [regByteOk] using hb
      rw [List.map_cons, asmRegisters, if_pos hrange, ih hrest, BitVec.ofNat_toNat, BitVec.setWidth_eq]

/-- The lines with three register operands that are accepted. -/
theorem asmRRR_eq_ok_iff {mnemonic : String} {make : RegByte → RegByte → RegByte → Instr} {ops : List AsmOperand}
    {i : Instr} : asmRRR mnemonic make ops = .ok i ↔
      ∃ a b c, (regByteOk a = true ∧ regByteOk b = true ∧ regByteOk c = true) ∧
        ops = [.register a.toNat, .register b.toNat, .register c.toNat] ∧ i = make a b c := by
  constructor
  · intro h
    unfold asmRRR at h
    split at h
    · split at h
      · next a b c hbs =>
        cases h
        obtain ⟨hok, hns⟩ := asmRegisters_eq_ok_iff.1 hbs
        simp only [List.map_cons, List.map_nil, List.cons.injEq, and_true] at hns
        obtain ⟨rfl, rfl, rfl⟩ := hns
        exact ⟨a, b, c, by simpa using hok, rfl, rfl⟩
      · cases h
      · cases h
    · cases h
  · rintro ⟨a, b, c, hok, rfl, rfl⟩
    have hbs : asmRegisters [a.toNat, b.toNat, c.toNat] = .ok [a, b, c] :=
      asmRegisters_eq_ok_iff.2 ⟨by simpa using hok, rfl⟩
    simp [asmRRR, hbs]

/-- The lines with two register operands and a number that are accepted. -/
theorem asmRRN_eq_ok_iff {mnemonic : String} {make : RegByte → RegByte → Byte → Instr} {ops : List AsmOperand}
    {i : Instr} : asmRRN mnemonic make ops = .ok i ↔
      ∃ a b n8, (regByteOk a = true ∧ regByteOk b = true) ∧
        ops = [.register a.toNat, .register b.toNat, .number n8.toNat] ∧ i = make a b n8 := by
  constructor
  · intro h
    unfold asmRRN at h
    split at h
    · next n =>
      split at h
      · next a b hbs =>
        split_ifs at h with hn
        cases h
        obtain ⟨hok, hns⟩ := asmRegisters_eq_ok_iff.1 hbs
        simp only [List.map_cons, List.map_nil, List.cons.injEq, and_true] at hns
        obtain ⟨rfl, rfl⟩ := hns
        exact ⟨a, b, BitVec.ofNat 8 n, by simpa using hok, by rw [toNat_ofNat_byte hn], rfl⟩
      · cases h
      · cases h
    · cases h
  · rintro ⟨a, b, n8, hok, rfl, rfl⟩
    have hbs : asmRegisters [a.toNat, b.toNat] = .ok [a, b] := asmRegisters_eq_ok_iff.2 ⟨by simpa using hok, rfl⟩
    simp [asmRRN, hbs, n8.isLt]

/-! ### Lines -/

theorem assemble_disassemble {i : Instr} (h : i.wf = true) : assemble (disassemble i) = .ok i := by
  cases i with
  | nop => rfl
  | add d s t => exact asmRRR_eq_ok_iff.2 ⟨d, s, t, by simpa [Instr.wf, and_assoc] using h, rfl, rfl⟩
  | addi d s n8 => exact asmRRN_eq_ok_iff.2 ⟨d, s, n8, by simpa [Instr.wf] using h, rfl, rfl⟩
  | loadm r b x => exact asmRRR_eq_ok_iff.2 ⟨r, b, x, by simpa [Instr.wf, and_assoc] using h, rfl, rfl⟩
  | storem r b x => exact asmRRR_eq_ok_iff.2 ⟨r, b, x, by simpa [Instr.wf, and_assoc] using h, rfl, rfl⟩

theorem wf_and_eq_disassemble_of_assemble {line : AsmLine} {i : Instr} (h : assemble line = .ok i) :
    i.wf = true ∧ line = disassemble i := by
  obtain ⟨mnemonic, ops⟩ := line
  simp only [assemble] at h
  split_ifs at h with hnop hops hadd haddi hloadm hstorem
  · cases h
    exact ⟨rfl, by rw [hnop, hops]; rfl⟩
  · obtain ⟨a, b, c, ⟨ha, hb, hc⟩, rfl, rfl⟩ := asmRRR_eq_ok_iff.1 h
    exact ⟨by simp [Instr.wf, ha, hb, hc], by rw [hadd]; rfl⟩
  · obtain ⟨a, b, n8, ⟨ha, hb⟩, rfl, rfl⟩ := asmRRN_eq_ok_iff.1 h
    exact ⟨by simp [Instr.wf, ha, hb], by rw [haddi]; rfl⟩
  · obtain ⟨a, b, c, ⟨ha, hb, hc⟩, rfl, rfl⟩ := asmRRR_eq_ok_iff.1 h
    exact ⟨by simp [Instr.wf, ha, hb, hc], by rw [hloadm]; rfl⟩
  · obtain ⟨a, b, c, ⟨ha, hb, hc⟩, rfl, rfl⟩ := asmRRR_eq_ok_iff.1 h
    exact ⟨by simp [Instr.wf, ha, hb, hc], by rw [hstorem]; rfl⟩

theorem exists_registerByte_of_register_mem {i : Instr} {n : Nat} (h : .register n ∈ (disassemble i).operands) :
    ∃ pb ∈ i.registerBytes, n = pb.2.toNat := by
  cases i with
  | nop => simp [disassemble] at h
  | add _ _ _ | addi _ _ _ | loadm _ _ _ | storem _ _ _ => simpa [disassemble, Instr.registerBytes] using h

/-- The line of a well-formed instruction names no R0 (R98). -/
theorem register_zero_notMem_disassemble {i : Instr} (h : i.wf = true) : .register 0 ∉ (disassemble i).operands := by
  intro hzero
  obtain ⟨pb, hpb, hn⟩ := exists_registerByte_of_register_mem hzero
  have hok : regByteOk pb.2 = true :=
    (firstBadRegister_eq_none_iff _).1 ((firstBadRegister_registerBytes_eq_none_iff i).2 h) pb hpb
  simp [regByteOk, ← hn] at hok

/-! ### The obligations -/

/-- Settles O9: each mnemonic is one instruction, and its operands are accepted when they are those of well-formed
bytes. -/
theorem assemblerAcceptsExactlyTheInstructionLines : Obligations.AssemblerAcceptsExactlyTheInstructionLines := by
  refine fun line i => ⟨wf_and_eq_disassemble_of_assemble, ?_⟩
  rintro ⟨hwf, rfl⟩
  exact assemble_disassemble hwf

/-- Settles O10: LOAD and REV have an arm of their own, and an accepted line is that of a well-formed instruction. -/
theorem assemblerRefusesLoadRevAndRegisterZero : Obligations.AssemblerRefusesLoadRevAndRegisterZero := by
  refine ⟨fun _ => rfl, fun _ => rfl, fun m ops i hzero h => ?_⟩
  obtain ⟨hwf, hline⟩ := wf_and_eq_disassemble_of_assemble h
  apply register_zero_notMem_disassemble hwf
  rwa [← hline]

end Sys2Proof.Machine


/-! What instructions leave unchanged, and the arithmetic of the sum: O22, O27, O28, O29. -/

namespace Sys2Proof.Machine

/-! ### Frames: what is common to all instructions, and to those that do not store -/

theorem Effect.mem_eq_of_ne_storem {i : Instr} {s t : State} (h : Effect i s t) (hi : ∀ r b x, i ≠ .storem r b x) :
    t.mem = s.mem := by
  obtain hm | ⟨r, b, x, hstore, -⟩ := h.mem_cases
  · exact hm
  · exact absurd hstore (hi _ _ _)

theorem Effect.x_eq_of_destination_ne {i : Instr} {s t : State} (h : Effect i s t) {r : GReg}
    (hr : i.destination ≠ some r.name) : t.x r = s.x r := by
  by_contra hx
  exact hr (h.destination_of_x_ne hx)

/-- An instruction without a destination writes no register. -/
theorem Effect.regs_eq_of_destination_none {i : Instr} {s t : State} (h : Effect i s t) (hi : i.destination = none) :
    t.regs = s.regs := by
  cases h with
  | raised c _ => rfl
  | advanced _ => rfl
  | wrote r v hd => simp [hi] at hd
  | stored r b x _ _ => rfl

/-- The run state is kept, or is an error that changed neither registers nor memory (R199). -/
theorem Effect.run_cases {i : Instr} {s t : State} (h : Effect i s t) :
    t.run = s.run ∨ ∃ e, t.run = .error e ∧ t.regs = s.regs ∧ t.mem = s.mem := by
  obtain ⟨c, rfl⟩ | ⟨hr, -⟩ := h.raises_or_completes
  · exact .inr ⟨c, rfl, rfl, rfl⟩
  · exact .inl hr

/-- The frame of an instruction that does not store: its destination is the only part of registers and memory that it
reaches. -/
theorem frame_of_ne_storem {i : Instr} {s t : State} (hi : ∀ r b x, i ≠ .storem r b x) (h : exec i s = .next t) :
    (∀ a, t.mem.readByte a = s.mem.readByte a) ∧ (∀ r : GReg, i.destination ≠ some r.name → t.x r = s.x r) ∧
    t.config = s.config ∧ t.prog = s.prog ∧ t.mode = s.mode ∧ t.turns = s.turns ∧
    (t.run = s.run ∨ ∃ e, t.run = .error e ∧ t.regs = s.regs) := by
  have he := exec_next h
  exact ⟨fun a => by rw [he.mem_eq_of_ne_storem hi], fun _ hr => he.x_eq_of_destination_ne hr, he.config_eq, he.prog_eq,
    he.mode_eq, he.turns_eq, he.run_cases.imp_right fun ⟨e, hrun, hregs, _⟩ => ⟨e, hrun, hregs⟩⟩

/-! ### The bytes that a STOREM reaches (R57, R59) -/

theorem storeAddress_name {s : State} {b x : GReg} (r : GReg)
    (ha : accessError s.config.memSize (s.ea b x) = none) :
    s.storeAddress r.name b.name x.name = some (s.ea b x) := by
  simp [State.storeAddress, ha]

/-- A STOREM leaves memory as it is, or stores at the address of `State.storeAddress`. -/
theorem Effect.mem_cases_of_storem {r b x : RegByte} {s t : State} (h : Effect (.storem r b x) s t) :
    t.mem = s.mem ∨ ∃ a v, s.storeAddress r b x = some a ∧ t.mem = s.mem.writeWord a v := by
  obtain hm | ⟨r', b', x', hi, ha, hm⟩ := h.mem_cases
  · exact .inl hm
  · cases hi
    exact .inr ⟨_, _, storeAddress_name r' ha, hm⟩

/-! ### The sum modulo 2^32 (R152) -/

/-- Adding the complement of `k` subtracts `k`. -/
theorem add32_complement {a : Word} {k : Nat} (h : k ≤ a.toNat) :
    add32 a (BitVec.ofNat 32 (2 ^ 32 - k)) = BitVec.ofNat 32 (a.toNat - k) := by
  apply BitVec.eq_of_toNat_eq
  have := a.isLt
  simp only [add32, BitVec.toNat_ofNat]
  omega

/-! ### The obligations -/

/-- Settles O27: none of the three is a store. -/
theorem registerInstructionsFrame : Obligations.RegisterInstructionsFrame := by
  intro i s t hi h
  refine frame_of_ne_storem ?_ h
  obtain rfl | ⟨d, a, b, rfl⟩ | ⟨d, a, n8, rfl⟩ := hi <;> simp

/-- Settles O28: LOADM is no store, and its destination is its first operand. -/
theorem loadmFrame : Obligations.LoadmFrame := by
  intro r b i s t h
  simpa [Instr.destination] using frame_of_ne_storem (by simp) h

/-- Settles O29: STOREM has no destination, and memory is unchanged or is written at the address stored to. -/
theorem storemFrame : Obligations.StoremFrame := by
  intro r b i s t hwf h
  have he := exec_next h
  refine ⟨fun a ha a' hout => ?_, fun hnone a' => ?_, he.regs_eq_of_destination_none rfl, he.config_eq, he.prog_eq,
    he.mode_eq, he.turns_eq, he.run_cases.imp_right fun ⟨e, hrun, _, hmem⟩ => ⟨e, hrun, hmem⟩⟩
  · obtain hm | ⟨ea, v, hea, hm⟩ := he.mem_cases_of_storem
    · rw [hm]
    · obtain rfl : a = ea := Option.some.inj (ha.symm.trans hea)
      rw [hm, Memory.readByte_writeWord_outside hwf a v a' hout]
  · obtain hm | ⟨ea, v, hea, -⟩ := he.mem_cases_of_storem
    · rw [hm]
    · simp [hnone] at hea

/-- Settles O22: the sum is that of bit vectors, and the two laws of subtraction are one. -/
theorem additionLaws : Obligations.AdditionLaws := by
  intro a b c
  refine ⟨?_, ?_, ?_, ?_, ?_, fun k hk => add32_complement hk⟩
  · rw [add32_eq, BitVec.toNat_add]
  · rw [add32_eq, add32_eq, add_comm]
  · simp only [add32_eq, add_assoc]
  · rw [add32_eq, add_zero]
  · rw [add32_complement le_rfl, Nat.sub_self]
    rfl

end Sys2Proof.Machine
